-- ==== Sys2Proof/Word.lean ====
section
/-!
DEFINITION. Word.lean: the widths the spec gives its values (rules R4, R6, R7, R20, R22, R61).
Every value is an unsigned bit field of a stated width.
-/
namespace Sys2Proof

/-- A byte: general registers, the delay timer, memory and framebuffer cells (rules R20, R25, R26, R27). -/
abbrev Byte := BitVec 8

/-- A 16-bit value: an instruction word, the program counter, the index register, a stack entry
(rules R22, R23, R24, R60). -/
abbrev Word := BitVec 16

/-- A nibble field of an instruction word (rule R61). -/
abbrev Nibble := BitVec 4

/-- A register index `X` or `Y`; every value names a register (rules R20, R56). -/
abbrev RegIx := BitVec 4

/-- The 12-bit immediate `NNN` (rule R61). -/
abbrev Imm12 := BitVec 12

end Sys2Proof
end

