-- ==== Sys2Proof/Syntax.lean ====
section
/-!
DEFINITION. Syntax.lean: the 34 instructions of the opcode map (rule R65), one constructor per row of
spec/opcode_table.json, in the table's order. Operands are the fields of rule R61.
-/
namespace Sys2Proof

/-- One instruction. The constructor's operands are the free fields of its row of rule R65. -/
inductive Instr where
  /-- 00E0 `CLS` (rule R136) -/
  | cls
  /-- 00EE `RET` (rule R81) -/
  | ret
  /-- 1NNN `JP nnn` (rule R82) -/
  | jpNnn (nnn : Imm12)
  /-- 2NNN `CALL nnn` (rule R83) -/
  | callNnn (nnn : Imm12)
  /-- 3XNN `SE Vx, nn` (rule R91) -/
  | seVxNn (x : RegIx) (nn : Byte)
  /-- 4XNN `SNE Vx, nn` (rule R92) -/
  | sneVxNn (x : RegIx) (nn : Byte)
  /-- 5XY0 `SE Vx, Vy` (rule R93) -/
  | seVxVy (x y : RegIx)
  /-- 6XNN `LD Vx, nn` (rule R102) -/
  | ldVxNn (x : RegIx) (nn : Byte)
  /-- 7XNN `ADD Vx, nn` (rule R103) -/
  | addVxNn (x : RegIx) (nn : Byte)
  /-- 8XY0 `LD Vx, Vy` (rule R104) -/
  | ldVxVy (x y : RegIx)
  /-- 8XY1 `OR Vx, Vy` (rule R105) -/
  | orVxVy (x y : RegIx)
  /-- 8XY2 `AND Vx, Vy` (rule R106) -/
  | andVxVy (x y : RegIx)
  /-- 8XY3 `XOR Vx, Vy` (rule R107) -/
  | xorVxVy (x y : RegIx)
  /-- 8XY4 `ADD Vx, Vy` (rule R108) -/
  | addVxVy (x y : RegIx)
  /-- 8XY5 `SUB Vx, Vy` (rule R109) -/
  | subVxVy (x y : RegIx)
  /-- 8XY6 `SHR Vx`; `y` is encoded and ignored (rule R110) -/
  | shrVx (x y : RegIx)
  /-- 8XY7 `SUBN Vx, Vy` (rule R111) -/
  | subnVxVy (x y : RegIx)
  /-- 8XYE `SHL Vx`; `y` is encoded and ignored (rule R112) -/
  | shlVx (x y : RegIx)
  /-- 9XY0 `SNE Vx, Vy` (rule R94) -/
  | sneVxVy (x y : RegIx)
  /-- ANNN `LD I, nnn` (rule R120) -/
  | ldINnn (nnn : Imm12)
  /-- BNNN `JP V0, nnn` (rule R84) -/
  | jpV0Nnn (nnn : Imm12)
  /-- CXNN `RND Vx, nn` (rule R113) -/
  | rndVxNn (x : RegIx) (nn : Byte)
  /-- DXYN `DRW Vx, Vy, n` (rule R138) -/
  | drwVxVyN (x y : RegIx) (n : Nibble)
  /-- EX9E `SKP Vx` (rule R151) -/
  | skpVx (x : RegIx)
  /-- EXA1 `SKNP Vx` (rule R152) -/
  | sknpVx (x : RegIx)
  /-- FX07 `LD Vx, DT` (rule R154) -/
  | ldVxDt (x : RegIx)
  /-- FX0A `LD Vx, K` (rule R153) -/
  | ldVxK (x : RegIx)
  /-- FX15 `LD DT, Vx` (rule R155) -/
  | ldDtVx (x : RegIx)
  /-- FX18 `LD ST, Vx` (rule R156) -/
  | ldStVx (x : RegIx)
  /-- FX1E `ADD I, Vx` (rule R121) -/
  | addIVx (x : RegIx)
  /-- FX29 `LD F, Vx` (rule R122) -/
  | ldFVx (x : RegIx)
  /-- FX33 `LD B, Vx` (rule R123) -/
  | ldBVx (x : RegIx)
  /-- FX55 `LD [I], Vx` (rule R124) -/
  | ldMemIVx (x : RegIx)
  /-- FX65 `LD Vx, [I]` (rule R125) -/
  | ldVxMemI (x : RegIx)
  deriving DecidableEq, Repr

end Sys2Proof
end

