-- ==== Sys2Proof/Decode.lean ====
section
/-!
DEFINITION. Decode.lean: from words to instructions and back (rules R60 to R66, R71), the opcode table as data,
and `decodeTableWord`, the host's entry to the decoder.
-/
namespace Sys2Proof

/-- `type`, bits 15-12 (rule R61). -/
def fieldType (w : Word) : Nibble := w.extractLsb' 12 4

/-- `X`, bits 11-8 (rule R61). -/
def fieldX (w : Word) : RegIx := w.extractLsb' 8 4

/-- `Y`, bits 7-4 (rule R61). -/
def fieldY (w : Word) : RegIx := w.extractLsb' 4 4

/-- `N`, bits 3-0 (rule R61). -/
def fieldN (w : Word) : Nibble := w.extractLsb' 0 4

/-- `NN`, bits 7-0 (rule R61). -/
def fieldNN (w : Word) : Byte := w.extractLsb' 0 8

/-- `NNN`, bits 11-0 (rule R61). -/
def fieldNNN (w : Word) : Imm12 := w.extractLsb' 0 12

/-- Rows 1 and 2 of rule R65: type 0 holds two words only. -/
def decodeType0 (w : Word) : Option Instr :=
  match w with
  | 0x00E0 => some .cls
  | 0x00EE => some .ret
  | _ => none

/-- Rows 10 to 18 of rule R65: type 8, selected by `N`. -/
def decodeType8 (x y : RegIx) (n : Nibble) : Option Instr :=
  match n with
  | 0x0 => some (.ldVxVy x y)
  | 0x1 => some (.orVxVy x y)
  | 0x2 => some (.andVxVy x y)
  | 0x3 => some (.xorVxVy x y)
  | 0x4 => some (.addVxVy x y)
  | 0x5 => some (.subVxVy x y)
  | 0x6 => some (.shrVx x y)
  | 0x7 => some (.subnVxVy x y)
  | 0xE => some (.shlVx x y)
  | _ => none

/-- Rows 24 and 25 of rule R65: type E, selected by `NN`. -/
def decodeTypeE (x : RegIx) (nn : Byte) : Option Instr :=
  match nn with
  | 0x9E => some (.skpVx x)
  | 0xA1 => some (.sknpVx x)
  | _ => none

/-- Rows 26 to 34 of rule R65: type F, selected by `NN`. -/
def decodeTypeF (x : RegIx) (nn : Byte) : Option Instr :=
  match nn with
  | 0x07 => some (.ldVxDt x)
  | 0x0A => some (.ldVxK x)
  | 0x15 => some (.ldDtVx x)
  | 0x18 => some (.ldStVx x)
  | 0x1E => some (.addIVx x)
  | 0x29 => some (.ldFVx x)
  | 0x33 => some (.ldBVx x)
  | 0x55 => some (.ldMemIVx x)
  | 0x65 => some (.ldVxMemI x)
  | _ => none

/-- `Decode(w)` of rule R65: the row the word matches, `none` where it matches none (rule R66). -/
def decodeWord (w : Word) : Option Instr :=
  match fieldType w with
  | 0x0 => decodeType0 w
  | 0x1 => some (.jpNnn (fieldNNN w))
  | 0x2 => some (.callNnn (fieldNNN w))
  | 0x3 => some (.seVxNn (fieldX w) (fieldNN w))
  | 0x4 => some (.sneVxNn (fieldX w) (fieldNN w))
  | 0x5 => if fieldN w = 0x0 then some (.seVxVy (fieldX w) (fieldY w)) else none
  | 0x6 => some (.ldVxNn (fieldX w) (fieldNN w))
  | 0x7 => some (.addVxNn (fieldX w) (fieldNN w))
  | 0x8 => decodeType8 (fieldX w) (fieldY w) (fieldN w)
  | 0x9 => if fieldN w = 0x0 then some (.sneVxVy (fieldX w) (fieldY w)) else none
  | 0xA => some (.ldINnn (fieldNNN w))
  | 0xB => some (.jpV0Nnn (fieldNNN w))
  | 0xC => some (.rndVxNn (fieldX w) (fieldNN w))
  | 0xD => some (.drwVxVyN (fieldX w) (fieldY w) (fieldN w))
  | 0xE => decodeTypeE (fieldX w) (fieldNN w)
  | 0xF => decodeTypeF (fieldX w) (fieldNN w)
  | _ => none

/-- What the decoder says of a sequence of bytes. -/
inductive Decoded where
  /-- An instruction, and the bytes after it. -/
  | instr (i : Instr) (rest : List Byte)
  /-- The first two bytes form a word that matches no row of rule R65 (rule R66). -/
  | illegal (w : Word)
  /-- Fewer than two bytes. -/
  | tooShort
  deriving DecidableEq, Repr

/-- The word of two consecutive bytes, high byte first (rules R44, R60). -/
def wordOfBytes (hi lo : Byte) : Word := hi ++ lo

/-- Decoding a sequence of bytes in ascending address order: total, and it names what it rejects. -/
def decode (bytes : List Byte) : Decoded :=
  match bytes with
  | hi :: lo :: rest =>
    match decodeWord (wordOfBytes hi lo) with
    | some i => .instr i rest
    | none => .illegal (wordOfBytes hi lo)
  | _ => .tooShort

/-- The word of an `XNN` format instruction (rule R62). -/
def packXNN (type : Nibble) (x : RegIx) (nn : Byte) : Word := type ++ x ++ nn

/-- The word of an `NNN` format instruction (rule R62). -/
def packNNN (type : Nibble) (nnn : Imm12) : Word := type ++ nnn

/-- The word of an `XY` or `XYN` format instruction (rule R62). -/
def packXYN (type : Nibble) (x y : RegIx) (n : Nibble) : Word := type ++ x ++ y ++ n

/-- The word of an instruction, from the patterns of rule R65. -/
def encode (i : Instr) : Word :=
  match i with
  | .cls => 0x00E0
  | .ret => 0x00EE
  | .jpNnn nnn => packNNN 0x1 nnn
  | .callNnn nnn => packNNN 0x2 nnn
  | .seVxNn x nn => packXNN 0x3 x nn
  | .sneVxNn x nn => packXNN 0x4 x nn
  | .seVxVy x y => packXYN 0x5 x y 0x0
  | .ldVxNn x nn => packXNN 0x6 x nn
  | .addVxNn x nn => packXNN 0x7 x nn
  | .ldVxVy x y => packXYN 0x8 x y 0x0
  | .orVxVy x y => packXYN 0x8 x y 0x1
  | .andVxVy x y => packXYN 0x8 x y 0x2
  | .xorVxVy x y => packXYN 0x8 x y 0x3
  | .addVxVy x y => packXYN 0x8 x y 0x4
  | .subVxVy x y => packXYN 0x8 x y 0x5
  | .shrVx x y => packXYN 0x8 x y 0x6
  | .subnVxVy x y => packXYN 0x8 x y 0x7
  | .shlVx x y => packXYN 0x8 x y 0xE
  | .sneVxVy x y => packXYN 0x9 x y 0x0
  | .ldINnn nnn => packNNN 0xA nnn
  | .jpV0Nnn nnn => packNNN 0xB nnn
  | .rndVxNn x nn => packXNN 0xC x nn
  | .drwVxVyN x y n => packXYN 0xD x y n
  | .skpVx x => packXNN 0xE x 0x9E
  | .sknpVx x => packXNN 0xE x 0xA1
  | .ldVxDt x => packXNN 0xF x 0x07
  | .ldVxK x => packXNN 0xF x 0x0A
  | .ldDtVx x => packXNN 0xF x 0x15
  | .ldStVx x => packXNN 0xF x 0x18
  | .addIVx x => packXNN 0xF x 0x1E
  | .ldFVx x => packXNN 0xF x 0x29
  | .ldBVx x => packXNN 0xF x 0x33
  | .ldMemIVx x => packXNN 0xF x 0x55
  | .ldVxMemI x => packXNN 0xF x 0x65

/-- The two bytes of an instruction as they stand in memory, the high byte first (rules R44, R60). -/
def encodeBytes (i : Instr) : List Byte :=
  [(encode i).extractLsb' 8 8, (encode i).extractLsb' 0 8]

/-- The two bytes of the word `w` of `nbits` bits, its bits above `nbits` zero, high byte first (rule R44). -/
def bytesOfTableWord (nbits w : Nat) : List Byte :=
  let word := BitVec.ofNat 16 (w % 2 ^ nbits)
  [word.extractLsb' 8 8, word.extractLsb' 0 8]

/-- What the decoder reads from the bytes of a word numbered as spec/opcode_table.json numbers it. -/
def decodeTableWord (nbits w : Nat) : Option Instr :=
  match decode (bytesOfTableWord nbits w) with
  | .instr i _ => some i
  | .illegal _ => none
  | .tooShort => none

/-- A row of spec/opcode_table.json: a word belongs to the row when its bits under `mask` are `value`. -/
structure OpcodeRow where
  mnemonic : String
  value : Word
  mask : Word
  deriving DecidableEq, Repr

/-- Whether a word belongs to a row. -/
def OpcodeRow.holds (r : OpcodeRow) (w : Word) : Bool := w &&& r.mask == r.value

/-- The rows of types 0 to 7. -/
def opcodeRowsLow : List OpcodeRow := [
  ⟨"CLS", 0x00E0, 0xFFFF⟩, ⟨"RET", 0x00EE, 0xFFFF⟩, ⟨"JP_NNN", 0x1000, 0xF000⟩, ⟨"CALL_NNN", 0x2000, 0xF000⟩,
  ⟨"SE_VX_NN", 0x3000, 0xF000⟩, ⟨"SNE_VX_NN", 0x4000, 0xF000⟩, ⟨"SE_VX_VY", 0x5000, 0xF00F⟩,
  ⟨"LD_VX_NN", 0x6000, 0xF000⟩, ⟨"ADD_VX_NN", 0x7000, 0xF000⟩]

/-- The rows of types 8 to D. -/
def opcodeRowsMiddle : List OpcodeRow := [
  ⟨"LD_VX_VY", 0x8000, 0xF00F⟩, ⟨"OR_VX_VY", 0x8001, 0xF00F⟩, ⟨"AND_VX_VY", 0x8002, 0xF00F⟩,
  ⟨"XOR_VX_VY", 0x8003, 0xF00F⟩, ⟨"ADD_VX_VY", 0x8004, 0xF00F⟩, ⟨"SUB_VX_VY", 0x8005, 0xF00F⟩,
  ⟨"SHR_VX", 0x8006, 0xF00F⟩, ⟨"SUBN_VX_VY", 0x8007, 0xF00F⟩, ⟨"SHL_VX", 0x800E, 0xF00F⟩,
  ⟨"SNE_VX_VY", 0x9000, 0xF00F⟩, ⟨"LD_I_NNN", 0xA000, 0xF000⟩, ⟨"JP_V0_NNN", 0xB000, 0xF000⟩,
  ⟨"RND_VX_NN", 0xC000, 0xF000⟩, ⟨"DRW_VX_VY_N", 0xD000, 0xF000⟩]

/-- The rows of types E and F. -/
def opcodeRowsHigh : List OpcodeRow := [
  ⟨"SKP_VX", 0xE09E, 0xF0FF⟩, ⟨"SKNP_VX", 0xE0A1, 0xF0FF⟩, ⟨"LD_VX_DT", 0xF007, 0xF0FF⟩,
  ⟨"LD_VX_K", 0xF00A, 0xF0FF⟩, ⟨"LD_DT_VX", 0xF015, 0xF0FF⟩, ⟨"LD_ST_VX", 0xF018, 0xF0FF⟩,
  ⟨"ADD_I_VX", 0xF01E, 0xF0FF⟩, ⟨"LD_F_VX", 0xF029, 0xF0FF⟩, ⟨"LD_B_VX", 0xF033, 0xF0FF⟩,
  ⟨"LD_MEM_I_VX", 0xF055, 0xF0FF⟩, ⟨"LD_VX_MEM_I", 0xF065, 0xF0FF⟩]

/-- The 34 rows of spec/opcode_table.json, in its order (rule R65). -/
def opcodeTable : List OpcodeRow := opcodeRowsLow ++ opcodeRowsMiddle ++ opcodeRowsHigh

/-- The key of an instruction's row in spec/opcode_table.json (rule R69). -/
def Instr.mnemonic : Instr → String
  | .cls => "CLS"
  | .ret => "RET"
  | .jpNnn _ => "JP_NNN"
  | .callNnn _ => "CALL_NNN"
  | .seVxNn _ _ => "SE_VX_NN"
  | .sneVxNn _ _ => "SNE_VX_NN"
  | .seVxVy _ _ => "SE_VX_VY"
  | .ldVxNn _ _ => "LD_VX_NN"
  | .addVxNn _ _ => "ADD_VX_NN"
  | .ldVxVy _ _ => "LD_VX_VY"
  | .orVxVy _ _ => "OR_VX_VY"
  | .andVxVy _ _ => "AND_VX_VY"
  | .xorVxVy _ _ => "XOR_VX_VY"
  | .addVxVy _ _ => "ADD_VX_VY"
  | .subVxVy _ _ => "SUB_VX_VY"
  | .shrVx _ _ => "SHR_VX"
  | .subnVxVy _ _ => "SUBN_VX_VY"
  | .shlVx _ _ => "SHL_VX"
  | .sneVxVy _ _ => "SNE_VX_VY"
  | .ldINnn _ => "LD_I_NNN"
  | .jpV0Nnn _ => "JP_V0_NNN"
  | .rndVxNn _ _ => "RND_VX_NN"
  | .drwVxVyN _ _ _ => "DRW_VX_VY_N"
  | .skpVx _ => "SKP_VX"
  | .sknpVx _ => "SKNP_VX"
  | .ldVxDt _ => "LD_VX_DT"
  | .ldVxK _ => "LD_VX_K"
  | .ldDtVx _ => "LD_DT_VX"
  | .ldStVx _ => "LD_ST_VX"
  | .addIVx _ => "ADD_I_VX"
  | .ldFVx _ => "LD_F_VX"
  | .ldBVx _ => "LD_B_VX"
  | .ldMemIVx _ => "LD_MEM_I_VX"
  | .ldVxMemI _ => "LD_VX_MEM_I"

end Sys2Proof
end

