-- ==== Sys2Proof/Config.lean ====
section
/-!
DEFINITION. Config.lean: the constants the spec fixes (rule R4), the parameters it leaves open (rule R5)
and the free values, the answers the environment gives (rules R30, R113, R150, R175).
-/
namespace Sys2Proof

/-- `PROG_BASE` (rule R4): the address of the first byte of a loaded image. -/
@[simp] def Config.progBase : Nat := 0x200

/-- `PROG_MAX` (rule R4): the longest image, 4096 - 0x200 bytes. -/
@[simp] def Config.progMax : Nat := 3584

/-- `PC_RESET` (rule R4). -/
@[simp] def Config.pcReset : Word := 0x200

/-- `KEY_NONE` (rule R4): the answer of `KeyCurrent()` when no key is held. -/
@[simp] def Config.keyNone : Byte := 0xFF

/-- The default of `FONT` (rules R5, R42).
PRESUMED: rule R42 takes these 80 bytes from general knowledge, and no instruction reads their values (notes/assumptions/6.md). -/
def Config.defaultFont : Vector Byte 80 := #v[
  0xF0, 0x90, 0x90, 0x90, 0xF0,  0x20, 0x60, 0x20, 0x20, 0x70,
  0xF0, 0x10, 0xF0, 0x80, 0xF0,  0xF0, 0x10, 0xF0, 0x10, 0xF0,
  0x90, 0x90, 0xF0, 0x10, 0x10,  0xF0, 0x80, 0xF0, 0x10, 0xF0,
  0xF0, 0x80, 0xF0, 0x90, 0xF0,  0xF0, 0x10, 0x20, 0x40, 0x40,
  0xF0, 0x90, 0xF0, 0x90, 0xF0,  0xF0, 0x90, 0xF0, 0x10, 0xF0,
  0xF0, 0x90, 0xF0, 0x90, 0x90,  0xE0, 0x90, 0xE0, 0x90, 0xE0,
  0xF0, 0x80, 0x80, 0x80, 0xF0,  0xE0, 0x90, 0x90, 0x90, 0xE0,
  0xF0, 0x80, 0xF0, 0x80, 0xF0,  0xF0, 0x80, 0xF0, 0x80, 0x80]

/-- The parameters of rule R5, fixed for one instance of the hardware. A field's default is the spec's.
DESIGN CHOICE: an instance carries its parameters in `State.cfg`, which no step changes (notes/assumptions/1.md). -/
structure Config where
  /-- `CLS_CLEARS`: whether 00E0 clears the framebuffer (rule R136, decision D1). -/
  clsClears : Bool := false
  /-- `RET_POPS`: whether 00EE pops the call stack into the pc (rule R81, decision D2). -/
  retPops : Bool := false
  /-- `REGXFER_INCLUSIVE`: whether FX55 and FX65 move V0..VX (rule R126, decision D3). -/
  regxferInclusive : Bool := false
  /-- `STACK_DEPTH`: the greatest number of stack entries, `none` for no limit (rules R24, R166, decision D14). -/
  stackDepth : Option Nat := none
  /-- `FONT`: the 80 bytes of the font table (rule R42, decision D19). -/
  font : Vector Byte 80 := Config.defaultFont
  /-- `TIMER_HZ`: kept for the record, read by no rule (rule R175, decision D13). -/
  timerHz : Option Nat := none
  deriving DecidableEq, Repr

/-- FREE VALUE: the byte `RandByte()` gives at the draw with this number; nothing constrains it
(rule R113, decision D12, notes/assumptions/2.md). -/
opaque Config.randByte : Nat → Byte

/-- FREE VALUE: the answer of `KeyHeld(k)` at the query with this number (rule R150, decision D11,
notes/assumptions/2.md). -/
opaque Config.keyHeld : Nat → Byte → Bool

/-- FREE VALUE: the answer of `KeyCurrent()` at the query with this number (rule R150, decision D11,
notes/assumptions/2.md). -/
opaque Config.keyCurrent : Nat → Byte

/-- FREE VALUE: how many `TimerTick` events fall just before the step with this number, zero allowed
(rule R175, decision D13, notes/assumptions/3.md). -/
opaque Config.ticksBefore : Nat → Nat

end Sys2Proof
end

