-- ==== Sys2Proof/Machine/State.lean ====
section
/-!
DEFINITION. Machine/State.lean: the state of the core (rules R20 to R33), the run status, the reasons a step can
be impossible, and the state after reset.
-/
namespace Sys2Proof.Machine

/-- The causes of a fault, ids 1 to 5 of rule R161. `Halt`, id 0, is `RunStatus.halted`. -/
inductive Cause where
  /-- The fetched word matches no row of rule R65 (rule R162). -/
  | decodeFault
  /-- The fetch address is above 0xFFE (rule R163). -/
  | fetchBounds
  /-- A data address is above 0xFFF; `addr` is the lowest such address of the instruction (rule R164). -/
  | memBounds (addr : Nat)
  /-- 00EE with `RET_POPS` on an empty call stack (rule R165). -/
  | stackUnderflow
  /-- 2NNN on a call stack that holds `STACK_DEPTH` entries (rule R166). -/
  | stackOverflow
  deriving DecidableEq, Repr

/-- The run status (rule R29). -/
inductive RunStatus where
  /-- `RUNNING`: the only status in which a step exists. -/
  | running
  /-- `HALTED`: the run ended well, on a self-jump (rule R167). -/
  | halted
  /-- `FAULTED(cause, word, addr)`: the run went wrong. `word` is the fetched word, absent for `FetchBounds`, and `addr`
  the fetch address (rule R160). -/
  | faulted (cause : Cause) (word : Option Word) (addr : Word)
  deriving DecidableEq, Repr

/-- The framebuffer store: 256 bytes, 8 per row of 64 pixels (rules R26, R130). -/
abbrev Framebuffer := Vector Byte 256

/-- The hand-over event `FrameOut(FB)`: the 256 bytes with the constant screen dimensions (rule R139). -/
structure FrameOut where
  pixels : Framebuffer
  width : Nat := 64
  height : Nat := 32
  deriving DecidableEq, Repr

/-- Why no step exists. Every fault of the spec is a change of `RunStatus` instead (rule R171, notes/assumptions/4.md). -/
inductive Fault where
  /-- A step was requested while `HALTED`. Raised by `step` only, on every request after the halt. Safe: the machine is
  stuck, no step exists (rules R29, R167). -/
  | stepWhileHalted
  /-- A step was requested while `FAULTED` with this cause. Raised by `step` only, on every request after the fault. Safe:
  the machine is stuck, there is no resumption (rules R29, R172). -/
  | stepWhileFaulted (cause : Cause)
  deriving DecidableEq, Repr

/-- What the model does not admit. -/
inductive Refusal where
  /-- An instruction without a meaning yet, raised by an arm of `exec` alone. No arm of this model raises it. Safe. -/
  | notModelled (mnemonic : String)
  /-- A load of an image of this length, above `PROG_MAX`: the load fails and nothing runs. Raised by `hostAct` only.
  Safe (rules R168, R192). -/
  | imageTooLong (length : Nat)
  /-- A second load, or a load after the first step. Raised by `hostAct` only. Safe (rules R192, R194). -/
  | loadNotAllowed
  deriving DecidableEq, Repr

/-- Everything the machine holds. The fields from `cfg` on are the model's own (INVENTORY.md, State). -/
structure State where
  /-- `V[0]` to `V[15]`; `V[15]` is `VF` (rules R20, R21). -/
  v : Vector Byte 16
  /-- The program counter (rule R22). -/
  pc : Word
  /-- `I`, the index register, 16 bits of storage (rule R23). -/
  idx : Word
  /-- The call stack, the newest entry first (rule R24). -/
  stack : List Word
  /-- `DT`, the delay timer (rule R25). -/
  dt : Byte
  /-- `FB`, the framebuffer (rule R26). -/
  fb : Framebuffer
  /-- `MEM`, as the addresses that differ from the reset contents, in rising order (rule R27). -/
  mem : List Host.Cell
  /-- The run status (rule R29). -/
  status : RunStatus
  /-- The parameters of this instance, which no step changes (rule R5). -/
  cfg : Config
  /-- How many answers the environment has given; the next free value has this number (rule R30). -/
  draws : Nat
  /-- The `FrameOut` events so far, the newest first (rules R139, R200). -/
  frames : List FrameOut
  /-- Whether a load is still allowed: after reset and before the first load or step (rules R192, R194). -/
  loadOpen : Bool
  deriving DecidableEq, Repr

/-- The state after reset of an instance with the parameters `cfg` (rules R33, R190). -/
def State.resetWith (cfg : Config) : State where
  v := Vector.replicate 16 0x00
  pc := Config.pcReset
  idx := 0x000
  stack := []
  dt := 0x00
  fb := Vector.replicate 256 0x00
  mem := []
  status := .running
  cfg := cfg
  draws := 0
  frames := []
  loadOpen := true

/-- The state after reset, with the default parameters (rules R5, R33). -/
def State.reset : State := State.resetWith {}

end Sys2Proof.Machine
end

