-- ==== Sys2Proof/Machine/Ops.lean ====
section
/-!
DEFINITION. Machine/Ops.lean: the named operations over memory, registers, program counter, stack and status that every
meaning is written with (rule R8), raising a fault among them.
-/
namespace Sys2Proof.Machine

/-! ### Memory (rules R27, R40 to R49) -/

/-- What a byte of `MEM` that no load and no store has written holds: the font table at 0x050, zero elsewhere
(rules R33, R41, R42). -/
def Memory.unlisted (font : Vector Byte 80) (a : Nat) : Byte :=
  if h : 0x050 ≤ a ∧ a < 0x0A0 then font[a - 0x050] else 0x00

/-- The byte listed for an address, if any. -/
def Memory.lookup (m : List Host.Cell) (a : Nat) : Option Byte :=
  match m with
  | [] => none
  | cell :: rest => if cell.1 = a then some cell.2 else Memory.lookup rest a

/-- The byte at an address. -/
def Memory.read (font : Vector Byte 80) (m : List Host.Cell) (a : Nat) : Byte :=
  (Memory.lookup m a).getD (Memory.unlisted font a)

/-- The list with the entry of address `a` set to `value`, in rising order. -/
def Memory.insert (m : List Host.Cell) (a : Nat) (value : Byte) : List Host.Cell :=
  match m with
  | [] => [(a, value)]
  | cell :: rest =>
    if a < cell.1 then (a, value) :: cell :: rest
    else if a = cell.1 then (a, value) :: rest
    else cell :: Memory.insert rest a value

/-- The list without the entries of address `a`. -/
def Memory.erase (m : List Host.Cell) (a : Nat) : List Host.Cell :=
  match m with
  | [] => []
  | cell :: rest => if cell.1 = a then Memory.erase rest a else cell :: Memory.erase rest a

/-- Storing a byte, keeping the canonical form: the value an unlisted address holds is not listed. -/
def Memory.write (font : Vector Byte 80) (m : List Host.Cell) (a : Nat) (value : Byte) : List Host.Cell :=
  if value = Memory.unlisted font a then Memory.erase m a else Memory.insert m a value

/-- Every address of the list is above `low`, and the addresses rise. -/
def Memory.risingFrom (low : Nat) (m : List Host.Cell) : Bool :=
  match m with
  | [] => true
  | cell :: rest => low ≤ cell.1 && Memory.risingFrom (cell.1 + 1) rest

/-- The canonical form: rising addresses below 0x1000, and no entry equal to what an unlisted address holds. -/
def Memory.wf (font : Vector Byte 80) (m : List Host.Cell) : Bool :=
  Memory.risingFrom 0 m && m.all fun cell => cell.1 < 0x1000 && cell.2 != Memory.unlisted font cell.1

/-- `MemRead(a, 1)` for an address in range; the range check is `firstOutOfRange` (rules R45, R47). -/
def State.readByte (s : State) (a : Nat) : Byte := Memory.read s.cfg.font s.mem a

/-- `MemWrite(a, 1, value)` for an address in range; the range check is `firstOutOfRange` (rules R45, R47). -/
def State.writeByte (s : State) (a : Nat) (value : Byte) : State :=
  { s with mem := Memory.write s.cfg.font s.mem a value }

/-- The `count` bytes from address `base` upward, read in ascending order (rule R45). -/
def State.readBytes (s : State) (base count : Nat) : List Byte :=
  (List.range count).map fun k => s.readByte (base + k)

/-- Storing bytes one by one at ascending addresses from `base` (rule R45). -/
def State.writeBytes (s : State) (base : Nat) (bytes : List Byte) : State :=
  match bytes with
  | [] => s
  | b :: rest => (s.writeByte base b).writeBytes (base + 1) rest

/-- The lowest address above 0xFFF among the `count` bytes from `base` upward, if there is one: the check that
precedes every write of an instruction (rules R47, R164, notes/assumptions/10.md). -/
def firstOutOfRange (base : Word) (count : Nat) : Option Nat :=
  if 0 < count ∧ 0xFFF < base.toNat + count - 1 then some (max base.toNat 0x1000) else none

/-- `Fetch(a)`: the big-endian word at `a` and `a + 1`, `none` above 0xFFE, with no alignment check
(rules R44, R46, R48). -/
def State.fetch (s : State) (a : Word) : Option Word :=
  if a.toNat ≤ 0xFFE then some (wordOfBytes (s.readByte a.toNat) (s.readByte (a.toNat + 1))) else none

/-! ### Registers (rules R20 to R25) -/

/-- `V[r]` (rule R20). -/
def State.getReg (s : State) (r : RegIx) : Byte := s.v[r.toNat]

/-- `V[r] <- value` (rule R20). -/
def State.setReg (s : State) (r : RegIx) (value : Byte) : State := { s with v := s.v.set r.toNat value }

/-- The `count` registers `V[0]`, `V[1]`, ... in ascending order (rule R126). -/
def State.lowRegs (s : State) (count : Nat) : List Byte :=
  (List.range count).map fun k => s.getReg (BitVec.ofNat 4 k)

/-- `V[0] <- MEM[base]`, `V[1] <- MEM[base + 1]`, ... for `count` registers, in ascending order (rule R125). -/
def State.loadRegs (s : State) (base count : Nat) : State :=
  match count with
  | 0 => s
  | k + 1 => (s.loadRegs base k).setReg (BitVec.ofNat 4 k) (s.readByte (base + k))

/-- `pc <- target`, with no mask and no alignment check (rules R22, R80). -/
def State.setPc (s : State) (target : Word) : State := { s with pc := target }

/-- The advance of the pc past the instruction, before it executes (rule R64). -/
def State.advance (s : State) : State := { s with pc := s.pc + 2 }

/-- The skip: a further 2 on top of the advance, when the condition holds (rule R90). -/
def State.skipIf (s : State) (condition : Bool) : State :=
  { s with pc := if condition then s.pc + 2 else s.pc }

/-- `I <- value` (rule R23). -/
def State.setIdx (s : State) (value : Word) : State := { s with idx := value }

/-- `DT <- value` (rule R25). -/
def State.setDt (s : State) (value : Byte) : State := { s with dt := value }

/-- `push(value)` (rule R24). -/
def State.push (s : State) (value : Word) : State := { s with stack := value :: s.stack }

/-- The state after `pop()`, without its newest entry (rule R24). -/
def State.dropTop (s : State) : State := { s with stack := s.stack.tail }

/-! ### Framebuffer and its hand-over (rules R26, R139) -/

/-- `FB <- fb` (rule R26). -/
def State.setFb (s : State) (fb : Framebuffer) : State := { s with fb := fb }

/-- `emit FrameOut(FB)` (rule R139). -/
def State.emitFrame (s : State) : State := { s with frames := { pixels := s.fb } :: s.frames }

/-! ### The answers of the environment (rules R30, R113, R150) -/

/-- The state after one answer of the environment has been used; the answer was number `s.draws`. -/
def State.nextDraw (s : State) : State := { s with draws := s.draws + 1 }

/-! ### Ends of a run (rules R29, R160, R167) -/

/-- `raise`: the step ends in a fault. The run status records the cause, the fetched word and the fetch address, which
is the pc of the state the step began in; nothing else changes, the pc included (rules R8, R160). -/
def State.raise (s : State) (cause : Cause) (word : Option Word) : State :=
  { s with status := .faulted cause word s.pc }

/-- `halt`: the step ends the run well (rule R167). -/
def State.halt (s : State) : State := { s with status := .halted }

/-! ### Events of the environment (rules R175, R190, R192) -/

/-- One tick of the delay timer: decrement if nonzero (rule R175). -/
def tickDown (dt : Byte) : Byte := if dt = 0 then 0 else dt - 1

/-- The delay timer after `count` ticks (rule R175). -/
def ticksDown (count : Nat) (dt : Byte) : Byte := BitVec.ofNat 8 (dt.toNat - count)

/-- `TimerTick`: it acts only while the run status is `RUNNING`, and on `DT` only (rules R29, R175). -/
def State.timerTick (s : State) : State :=
  match s.status with
  | .running => { s with dt := tickDown s.dt }
  | .halted => s
  | .faulted _ _ _ => s

/-- What lies between two steps of a running core: any number of timer ticks, and the end of the time in which a load
is allowed (rules R50, R175, R192, notes/assumptions/3.md). -/
def State.hostTurn (s : State) : State :=
  { s with dt := ticksDown (Config.ticksBefore s.draws) s.dt, draws := s.draws + 1, loadOpen := false }

/-- `Reset` in any run status: every piece of state at its reset value, the parameters kept. The environment does not
begin its answers again (rules R29, R190, notes/assumptions/8.md). -/
def State.hostReset (s : State) : State := { State.resetWith s.cfg with draws := s.draws }

/-- The effect of an accepted load: the image, byte for byte, from 0x200 upward (rules R43, R192). -/
def State.loadImage (s : State) (image : List Byte) : State :=
  { s.writeBytes Config.progBase image with loadOpen := false }

end Sys2Proof.Machine
end

