-- ==== Sys2Proof/Machine/Flags.lean ====
section
/-!
DEFINITION. Machine/Flags.lean: the values of the flag register `VF` and the order in which it is written
(rules R21, R100, R101).
-/
namespace Sys2Proof.Machine

/-- `VF` is `V[0xF]` (rule R21). -/
def flagReg : RegIx := 0xF

/-- A flag as the byte that is stored: 0x00 or 0x01 (rule R21). -/
def flagByte (flag : Bool) : Byte := if flag then 0x01 else 0x00

/-- The carry of an addition: the integer sum exceeds 255 (rules R100, R108). -/
def carryOut (a b : Byte) : Bool := 255 < a.toNat + b.toNat

/-- The complement of the borrow of `minuend - subtrahend` (rules R100, R109, R111). -/
def noBorrow (minuend subtrahend : Byte) : Bool := subtrahend.toNat ≤ minuend.toNat

/-- The bit a right shift by one moves out (rule R110). -/
def lowBit (a : Byte) : Bool := a.getLsbD 0

/-- The bit a left shift by one moves out (rule R112). -/
def highBit (a : Byte) : Bool := a.getLsbD 7

/-- `VF <- flag` (rule R21). -/
def State.setFlag (s : State) (flag : Bool) : State := s.setReg flagReg (flagByte flag)

/-- The two writes of the flag-writing instructions: the result to `V[X]`, then the flag to `VF`, so that the flag is
what `VF` holds afterwards when X is 0xF (rule R101). -/
def State.setResultThenFlag (s : State) (x : RegIx) (result : Byte) (flag : Bool) : State :=
  (s.setReg x result).setFlag flag

end Sys2Proof.Machine
end

