-- ==== Sys2Proof/Machine/Alu.lean ====
section
/-!
DEFINITION. Machine/Alu.lean: register loads, arithmetic, logic, shifts and the random byte (rules R100 to R113).
Every source register is read from the state the step began in (rule R101).
-/
namespace Sys2Proof.Machine

/-- 6XNN `LD Vx, nn` (rule R102). -/
def execLdVxNn (x : RegIx) (nn : Byte) (s : State) : Host.Outcome State Fault Refusal :=
  .next (s.advance.setReg x nn)

/-- 7XNN `ADD Vx, nn` (rule R103): modulo 256, `VF` is not written as a flag. -/
def execAddVxNn (x : RegIx) (nn : Byte) (s : State) : Host.Outcome State Fault Refusal :=
  .next (s.advance.setReg x (s.getReg x + nn))

/-- 8XY0 `LD Vx, Vy` (rule R104). -/
def execLdVxVy (x y : RegIx) (s : State) : Host.Outcome State Fault Refusal :=
  .next (s.advance.setReg x (s.getReg y))

/-- 8XY1 `OR Vx, Vy` (rule R105). -/
def execOrVxVy (x y : RegIx) (s : State) : Host.Outcome State Fault Refusal :=
  .next (s.advance.setReg x (s.getReg x ||| s.getReg y))

/-- 8XY2 `AND Vx, Vy` (rule R106). -/
def execAndVxVy (x y : RegIx) (s : State) : Host.Outcome State Fault Refusal :=
  .next (s.advance.setReg x (s.getReg x &&& s.getReg y))

/-- 8XY3 `XOR Vx, Vy` (rule R107). -/
def execXorVxVy (x y : RegIx) (s : State) : Host.Outcome State Fault Refusal :=
  .next (s.advance.setReg x (s.getReg x ^^^ s.getReg y))

/-- 8XY4 `ADD Vx, Vy` (rule R108): `VF` is the carry. -/
def execAddVxVy (x y : RegIx) (s : State) : Host.Outcome State Fault Refusal :=
  .next (s.advance.setResultThenFlag x (s.getReg x + s.getReg y) (carryOut (s.getReg x) (s.getReg y)))

/-- 8XY5 `SUB Vx, Vy` (rule R109): `VF` is the complement of the borrow of `V[X] - V[Y]`. -/
def execSubVxVy (x y : RegIx) (s : State) : Host.Outcome State Fault Refusal :=
  .next (s.advance.setResultThenFlag x (s.getReg x - s.getReg y) (noBorrow (s.getReg x) (s.getReg y)))

/-- 8XY6 `SHR Vx` (rule R110): the operand is `V[X]`; `Y` is ignored. -/
def execShrVx (x _y : RegIx) (s : State) : Host.Outcome State Fault Refusal :=
  .next (s.advance.setResultThenFlag x (s.getReg x >>> 1) (lowBit (s.getReg x)))

/-- 8XY7 `SUBN Vx, Vy` (rule R111): `VF` is the complement of the borrow of `V[Y] - V[X]`. -/
def execSubnVxVy (x y : RegIx) (s : State) : Host.Outcome State Fault Refusal :=
  .next (s.advance.setResultThenFlag x (s.getReg y - s.getReg x) (noBorrow (s.getReg y) (s.getReg x)))

/-- 8XYE `SHL Vx` (rule R112): the operand is `V[X]`; `Y` is ignored. -/
def execShlVx (x _y : RegIx) (s : State) : Host.Outcome State Fault Refusal :=
  .next (s.advance.setResultThenFlag x (s.getReg x <<< 1) (highBit (s.getReg x)))

/-- CXNN `RND Vx, nn` (rule R113): one free draw, masked, into `V[X]`; `I` is not touched (conflict C1). -/
def execRndVxNn (x : RegIx) (nn : Byte) (s : State) : Host.Outcome State Fault Refusal :=
  .next (s.advance.nextDraw.setReg x (Config.randByte s.draws &&& nn))

end Sys2Proof.Machine
end

