-- ==== Sys2Proof/Machine/Operands.lean ====
section
/-!
DEFINITION. Machine/Operands.lean: how operands become addresses, counts and values (rules R63, R84, R121, R122, R123,
R126, R138).
-/
namespace Sys2Proof.Machine

/-- `NNN` as an absolute address or as a value of `I`: the unsigned value of its bits (rule R63). -/
def immAddr (nnn : Imm12) : Word := nnn.setWidth 16

/-- The target of BNNN: the integer sum of `NNN` and `V[0]`, not masked (rule R84). -/
def offsetTarget (nnn : Imm12) (v0 : Byte) : Word := immAddr nnn + v0.setWidth 16

/-- The new `I` of FX1E: the sum masked to 12 bits (rule R121). -/
def indexSum (idx : Word) (vx : Byte) : Word := (idx + vx.setWidth 16) &&& 0xFFF

/-- The new `I` of FX29: `0x050 + V[X] * 5`, the whole register value (rule R122). -/
def glyphAddr (vx : Byte) : Word := 0x050 + vx.setWidth 16 * 5

/-- The hundreds, tens and ones digit of a byte, one per byte (rule R123). -/
def bcdDigits (v : Byte) : List Byte :=
  [BitVec.ofNat 8 (v.toNat / 100), BitVec.ofNat 8 (v.toNat / 10 % 10), BitVec.ofNat 8 (v.toNat % 10)]

/-- The number of registers FX55 and FX65 move (rule R126). -/
def regCount (cfg : Config) (x : RegIx) : Nat := if cfg.regxferInclusive then x.toNat + 1 else x.toNat

/-- The starting column of a sprite (rule R138). -/
def startColumn (vx : Byte) : Nat := vx.toNat % 64

/-- The starting row of a sprite (rule R138). -/
def startRow (vy : Byte) : Nat := vy.toNat % 32

end Sys2Proof.Machine
end

