-- ==== Sys2Proof/Machine/Control.lean ====
section
/-!
DEFINITION. Machine/Control.lean: the control transfers (rules R80 to R84). Each meaning takes the state the step began
in, so its pc is the fetch address `a`, and `s.advance` is the state rule R64 hands to the instruction.
-/
namespace Sys2Proof.Machine

/-- 00EE `RET` (rule R81): with `RET_POPS` the newest stack entry becomes the pc, an empty stack faults; without it,
only the pc advances. -/
def execRet (s : State) : Host.Outcome State Fault Refusal :=
  .next (
    if s.cfg.retPops then
      match s.stack with
      | [] => s.raise .stackUnderflow (some (encode .ret))
      | top :: _ => s.advance.dropTop.setPc top
    else s.advance)

/-- 1NNN `JP nnn` (rule R82): a jump to its own address halts with the pc left at that address (rule R167). -/
def execJpNnn (nnn : Imm12) (s : State) : Host.Outcome State Fault Refusal :=
  .next (
    if immAddr nnn = s.pc then (s.advance.setPc (immAddr nnn)).halt
    else s.advance.setPc (immAddr nnn))

/-- 2NNN `CALL nnn` (rule R83): pushes the address of the instruction after it and jumps; a full stack faults. -/
def execCallNnn (nnn : Imm12) (s : State) : Host.Outcome State Fault Refusal :=
  .next (
    if s.cfg.stackDepth = some s.stack.length then s.raise .stackOverflow (some (encode (.callNnn nnn)))
    else (s.advance.push s.advance.pc).setPc (immAddr nnn))

/-- BNNN `JP V0, nnn` (rule R84): jumps to `NNN + V[0]`, with no self-jump detection. -/
def execJpV0Nnn (nnn : Imm12) (s : State) : Host.Outcome State Fault Refusal :=
  .next (s.advance.setPc (offsetTarget nnn (s.getReg 0x0)))

end Sys2Proof.Machine
end

