-- ==== Sys2Proof/Machine/Framebuffer.lean ====
section
/-!
DEFINITION. Machine/Framebuffer.lean: the framebuffer engine (rules R130 to R135) and the sprite compositor
(rules R137, R138). A pixel is a Bool: true is PIXEL_ON, 1.
-/
namespace Sys2Proof.Machine

/-- The byte index of an in-range pixel, `y * 8 + x / 8` (rule R131). -/
def pixelByte (x : Fin 64) (y : Fin 32) : Fin 256 := ⟨y.val * 8 + x.val / 8, by omega⟩

/-- The bit index of a pixel, `7 - x mod 8` (rule R131). -/
def pixelBit (x : Fin 64) : Nat := 7 - x.val % 8

/-- `mask(x,y)`, one at the pixel's bit (rule R131). -/
def pixelMask (x : Fin 64) : Byte := 1#8 <<< pixelBit x

/-- `FbGet(x, y)` (rule R132). -/
def fbGet (fb : Framebuffer) (x : Fin 64) (y : Fin 32) : Bool := fb[pixelByte x y].getLsbD (pixelBit x)

/-- `FbSet(x, y, v)` (rule R133). -/
def fbSet (fb : Framebuffer) (x : Fin 64) (y : Fin 32) (v : Bool) : Framebuffer :=
  let old := fb[pixelByte x y]
  fb.set (pixelByte x y) (if v then old ||| pixelMask x else old &&& ~~~ pixelMask x)

/-- `FbXor(x, y, b)`: the framebuffer afterwards and the pixel it returns; outside the screen it changes nothing and
returns PIXEL_OFF (rules R134, R135). -/
def fbXor (fb : Framebuffer) (x y : Nat) (b : Bool) : Framebuffer × Bool :=
  if h : x < 64 ∧ y < 32 then
    let new := fbGet fb ⟨x, h.1⟩ ⟨y, h.2⟩ ^^ b
    (fbSet fb ⟨x, h.1⟩ ⟨y, h.2⟩ new, new)
  else (fb, false)

/-- One sprite bit: composited only if its pixel lies on the screen; a collision is a bit of 1 that leaves its pixel
off (rules R137, R138, conflict C10). The second component says whether a collision has happened so far. -/
def drawBit (acc : Framebuffer × Bool) (px py : Nat) (b : Bool) : Framebuffer × Bool :=
  if px < 64 ∧ py < 32 then
    let after := fbXor acc.1 px py b
    (after.1, acc.2 || (b && !after.2))
  else acc

/-- The first `count` columns of one sprite row, the most significant bit leftmost (rule R138). -/
def drawColumns (acc : Framebuffer × Bool) (x0 py : Nat) (row : Byte) (count : Nat) : Framebuffer × Bool :=
  match count with
  | 0 => acc
  | c + 1 => drawBit (drawColumns acc x0 py row c) (x0 + c) py (row.getLsbD (7 - c))

/-- The rows of a sprite from screen row `py` downward (rule R138). -/
def drawRows (acc : Framebuffer × Bool) (x0 py : Nat) (rows : List Byte) : Framebuffer × Bool :=
  match rows with
  | [] => acc
  | row :: rest => drawRows (drawColumns acc x0 py row 8) x0 (py + 1) rest

/-- A whole sprite, with the collision flag 0 before the loop (rule R138). -/
def drawSprite (fb : Framebuffer) (x0 y0 : Nat) (rows : List Byte) : Framebuffer × Bool :=
  drawRows (fb, false) x0 y0 rows

/-- The framebuffer with every byte 0x00 (rule R136). -/
def fbClear : Framebuffer := Vector.replicate 256 0x00

end Sys2Proof.Machine
end

