-- ==== Sys2Proof/Machine/Draw.lean ====
section
/-!
DEFINITION. Machine/Draw.lean: clear screen and sprite draw (rules R136 to R139).
-/
namespace Sys2Proof.Machine

/-- 00E0 `CLS` (rule R136): clears the framebuffer when `CLS_CLEARS`, else only the pc advances; no `FrameOut`. -/
def execCls (s : State) : Host.Outcome State Fault Refusal :=
  .next (if s.cfg.clsClears then s.advance.setFb fbClear else s.advance)

/-- DXYN `DRW Vx, Vy, n` (rule R138): the position and all sprite bytes are read from the state the step began in, the
sprite is composited with clipping, `VF` becomes the collision flag, and the new framebuffer is handed over (rule R139). -/
def execDrwVxVyN (x y : RegIx) (n : Nibble) (s : State) : Host.Outcome State Fault Refusal :=
  .next (
    match firstOutOfRange s.idx n.toNat with
    | some bad => s.raise (.memBounds bad) (some (encode (.drwVxVyN x y n)))
    | none =>
      let drawn := drawSprite s.fb (startColumn (s.getReg x)) (startRow (s.getReg y)) (s.readBytes s.idx.toNat n.toNat)
      ((s.advance.setFb drawn.1).setFlag drawn.2).emitFrame)

end Sys2Proof.Machine
end

