-- ==== Sys2Proof/Machine/Index.lean ====
section
/-!
DEFINITION. Machine/Index.lean: the index register and the memory instructions (rules R120 to R126). The range check
comes before every write, so a faulting instruction leaves the state the step began in (rules R47, R160).
-/
namespace Sys2Proof.Machine

/-- ANNN `LD I, nnn` (rule R120). -/
def execLdINnn (nnn : Imm12) (s : State) : Host.Outcome State Fault Refusal :=
  .next (s.advance.setIdx (immAddr nnn))

/-- FX1E `ADD I, Vx` (rule R121): masked to 12 bits, no flag. -/
def execAddIVx (x : RegIx) (s : State) : Host.Outcome State Fault Refusal :=
  .next (s.advance.setIdx (indexSum s.idx (s.getReg x)))

/-- FX29 `LD F, Vx` (rule R122). -/
def execLdFVx (x : RegIx) (s : State) : Host.Outcome State Fault Refusal :=
  .next (s.advance.setIdx (glyphAddr (s.getReg x)))

/-- FX33 `LD B, Vx` (rule R123). -/
def execLdBVx (x : RegIx) (s : State) : Host.Outcome State Fault Refusal :=
  .next (
    match firstOutOfRange s.idx 3 with
    | some bad => s.raise (.memBounds bad) (some (encode (.ldBVx x)))
    | none => s.advance.writeBytes s.idx.toNat (bcdDigits (s.getReg x)))

/-- FX55 `LD [I], Vx` (rules R124, R126). -/
def execLdMemIVx (x : RegIx) (s : State) : Host.Outcome State Fault Refusal :=
  .next (
    match firstOutOfRange s.idx (regCount s.cfg x) with
    | some bad => s.raise (.memBounds bad) (some (encode (.ldMemIVx x)))
    | none => s.advance.writeBytes s.idx.toNat (s.lowRegs (regCount s.cfg x)))

/-- FX65 `LD Vx, [I]` (rules R125, R126). -/
def execLdVxMemI (x : RegIx) (s : State) : Host.Outcome State Fault Refusal :=
  .next (
    match firstOutOfRange s.idx (regCount s.cfg x) with
    | some bad => s.raise (.memBounds bad) (some (encode (.ldVxMemI x)))
    | none => s.advance.loadRegs s.idx.toNat (regCount s.cfg x))

end Sys2Proof.Machine
end

