-- ==== Sys2Proof/Machine/Keypad.lean ====
section
/-!
DEFINITION. Machine/Keypad.lean: the key and timer instructions (rules R150 to R156). The answers of the two key
queries are free values, one per executed query (decision D11, notes/assumptions/2.md).
-/
namespace Sys2Proof.Machine

/-- EX9E `SKP Vx` (rule R151): the whole value of `V[X]` is the key code. -/
def execSkpVx (x : RegIx) (s : State) : Host.Outcome State Fault Refusal :=
  .next (s.advance.nextDraw.skipIf (Config.keyHeld s.draws (s.getReg x)))

/-- EXA1 `SKNP Vx` (rule R152). -/
def execSknpVx (x : RegIx) (s : State) : Host.Outcome State Fault Refusal :=
  .next (s.advance.nextDraw.skipIf (!Config.keyHeld s.draws (s.getReg x)))

/-- FX0A `LD Vx, K` (rule R153): with no key the pc goes back to the instruction, else its code goes to `V[X]`. -/
def execLdVxK (x : RegIx) (s : State) : Host.Outcome State Fault Refusal :=
  .next (
    if Config.keyCurrent s.draws = Config.keyNone then s.advance.nextDraw.setPc (s.advance.pc - 2)
    else s.advance.nextDraw.setReg x (Config.keyCurrent s.draws))

/-- FX07 `LD Vx, DT` (rule R154). -/
def execLdVxDt (x : RegIx) (s : State) : Host.Outcome State Fault Refusal :=
  .next (s.advance.setReg x s.dt)

/-- FX15 `LD DT, Vx` (rule R155). -/
def execLdDtVx (x : RegIx) (s : State) : Host.Outcome State Fault Refusal :=
  .next (s.advance.setDt (s.getReg x))

/-- FX18 `LD ST, Vx` (rule R156): no effect; there is no sound timer (rule R28). -/
def execLdStVx (_x : RegIx) (s : State) : Host.Outcome State Fault Refusal :=
  .next s.advance

end Sys2Proof.Machine
end

