-- ==== Sys2Proof/Machine/Skip.lean ====
section
/-!
DEFINITION. Machine/Skip.lean: the conditional skips on register values (rules R90 to R94).
-/
namespace Sys2Proof.Machine

/-- 3XNN `SE Vx, nn` (rule R91). -/
def execSeVxNn (x : RegIx) (nn : Byte) (s : State) : Host.Outcome State Fault Refusal :=
  .next (s.advance.skipIf (s.getReg x == nn))

/-- 4XNN `SNE Vx, nn` (rule R92). -/
def execSneVxNn (x : RegIx) (nn : Byte) (s : State) : Host.Outcome State Fault Refusal :=
  .next (s.advance.skipIf (s.getReg x != nn))

/-- 5XY0 `SE Vx, Vy` (rule R93). -/
def execSeVxVy (x y : RegIx) (s : State) : Host.Outcome State Fault Refusal :=
  .next (s.advance.skipIf (s.getReg x == s.getReg y))

/-- 9XY0 `SNE Vx, Vy` (rule R94). -/
def execSneVxVy (x y : RegIx) (s : State) : Host.Outcome State Fault Refusal :=
  .next (s.advance.skipIf (s.getReg x != s.getReg y))

end Sys2Proof.Machine
end

