-- ==== Sys2Proof/Machine/Cycle.lean ====
section
/-!
DEFINITION. Machine/Cycle.lean: one fetch, decode and execute cycle (rule R64), when a step exists (rule R29), and the
placing of a word where the next fetch finds it.
-/
namespace Sys2Proof.Machine

/-- One step of a running core: fetch, decode, execute; the first fault reached is the one raised (rules R64, R170). -/
def cycle (s : State) : Host.Outcome State Fault Refusal :=
  match s.fetch s.pc with
  | none => .next (s.raise .fetchBounds none)
  | some w =>
    match decodeWord w with
    | none => .next (s.raise .decodeFault (some w))
    | some i => exec i s

/-- A step request. A running core first sees what the environment did since the last step, then runs one cycle; in
`HALTED` and `FAULTED` no step exists (rules R29, R50, R175). -/
def requestStep (s : State) : Host.Outcome State Fault Refusal :=
  match s.status with
  | .running => cycle s.hostTurn
  | .halted => .fault .stepWhileHalted
  | .faulted cause _ _ => .fault (.stepWhileFaulted cause)

/-- The bytes of a table word stored at the pc, high byte first (rule R44). -/
def placeWord (s : State) (nbits w : Nat) : State := s.writeBytes s.pc.toNat (bytesOfTableWord nbits w)

end Sys2Proof.Machine
end

