-- ==== Sys2Proof/Machine/Step.lean ====
section
/-!
DEFINITION. Machine/Step.lean: the step function of the machine and the host's way to place an instruction.
-/
namespace Sys2Proof.Machine

/-- One step (rules R29, R64). -/
def step (s : State) : Host.Outcome State Fault Refusal := requestStep s

/-- `s` with the instruction word `w` stored where the next step fetches, at the pc; nothing else changes. -/
def State.withFetchWord (s : State) (nbits w : Nat) : State := placeWord s nbits w

end Sys2Proof.Machine
end

