-- ==== Sys2Proof/WellFormed.lean ====
section
/-!
DEFINITION. WellFormed.lean: which words are instructions, and which images can be loaded.
An `Instr` needs no check of its own: its operands have the widths of rule R61, every register index is
valid (rule R56), and every immediate is used as it stands (rule R63).
-/
namespace Sys2Proof

/-- Every term of `Instr` is an instruction the hardware has (rules R56, R63): the operand types admit no other. -/
def Instr.wellFormed (_ : Instr) : Bool := true

/-- The legal words: the complement of rule R66's table of illegal words, read off that table by type,
with the word taken as a number. It does not use the decoder. -/
def legalWord (w : Word) : Bool :=
  let type := w.toNat / 4096
  let n := w.toNat % 16
  let nn := w.toNat % 256
  if type = 0x0 then w.toNat = 0x00E0 || w.toNat = 0x00EE
  else if type = 0x5 then n = 0
  else if type = 0x8 then !([0x8, 0x9, 0xA, 0xB, 0xC, 0xD, 0xF].contains n)
  else if type = 0x9 then n = 0
  else if type = 0xE then [0x9E, 0xA1].contains nn
  else if type = 0xF then [0x07, 0x0A, 0x15, 0x18, 0x1E, 0x29, 0x33, 0x55, 0x65].contains nn
  else true

/-- An image the load accepts: at most `PROG_MAX` bytes, with no other check (rules R43, R192). -/
def wellFormedImage (image : List Byte) : Bool := image.length ≤ Config.progMax

end Sys2Proof
end

