-- ==== Sys2Proof/Machine/HostProtocol.lean ====
section
/-!
DEFINITION. Machine/HostProtocol.lean: what the environment can do to the core (rules R190, R192, R194).
The answers to the core's queries are the free values of Config.lean, and `FrameOut` is recorded in `State.frames`.
-/
namespace Sys2Proof.Machine

/-- The interactions of rule R194 that the host starts. -/
inductive HostAction where
  /-- `Reset` (rule R190). -/
  | reset
  /-- `Load(image)` (rule R192). -/
  | load (image : List Byte)
  /-- `Step` (rule R64). -/
  | step
  /-- `TimerTick` (rule R175). -/
  | timerTick
  deriving DecidableEq, Repr

/-- `Load(image)`: once, after reset and before the first step, and at most 3584 bytes; else it is refused and the
state stays as it was (rules R168, R192). -/
def hostLoad (image : List Byte) (s : State) : Host.Outcome State Fault Refusal :=
  if !s.loadOpen then .refused .loadNotAllowed
  else if !wellFormedImage image then .refused (.imageTooLong image.length)
  else .next (s.loadImage image)

/-- One interaction of the host (rule R194). -/
def hostAct (action : HostAction) (s : State) : Host.Outcome State Fault Refusal :=
  match action with
  | .reset => .next s.hostReset
  | .load image => hostLoad image s
  | .step => step s
  | .timerTick => .next s.timerTick

/-- The host's read of the framebuffer between steps: the 256 bytes, with no effect on the core (rules R55, R194). -/
def hostReadFb (s : State) : Framebuffer := s.fb

end Sys2Proof.Machine
end

