-- ==== Sys2Proof/Safety.lean ====
section
/-!
DEFINITION. Safety.lean: the end of a run, the stop causes, and the invariant of the machine, in the terms claims use.
-/
namespace Sys2Proof

open Sys2Proof.Machine

/-- The run has not ended (rules R160, R200). -/
def RunGoesOn (s : State) : Prop := s.status = .running

/-- The run ended well: the core halted (rules R160, R200). -/
def RunEndedWell (s : State) : Prop := s.status = .halted

/-- The run ended badly: the core faulted (rules R160, R200). -/
def RunWentWrong (s : State) : Prop := ∃ cause word addr, s.status = .faulted cause word addr

/-- The id of a fault cause (rule R161); the machine stores it nowhere. -/
def causeId : Cause → Nat
  | .decodeFault => 1
  | .fetchBounds => 2
  | .memBounds _ => 3
  | .stackUnderflow => 4
  | .stackOverflow => 5

/-- The id of the stop cause of a state, `none` while the run goes on (rule R161). -/
def stopId (s : State) : Option Nat :=
  match s.status with
  | .running => none
  | .halted => some 0
  | .faulted cause _ _ => some (causeId cause)

/-- Rule R24: the stack holds at most `STACK_DEPTH` entries. -/
def StackWithinDepth (s : State) : Prop := ∀ d, s.cfg.stackDepth = some d → s.stack.length ≤ d

/-- Rules R160, R162 to R164: what a fault records is what the frozen state shows. -/
def FaultRecordTrue (s : State) : Prop :=
  ∀ cause word addr, s.status = .faulted cause word addr →
    addr = s.pc ∧ word = s.fetch s.pc ∧
    (cause = .decodeFault ↔ ∃ w, word = some w ∧ decodeWord w = none) ∧
    (cause = .fetchBounds ↔ word = none) ∧
    (∀ bad, cause = .memBounds bad → bad = 0x1000)

/-- Rules R82, R167, R200: a halted core stands on a jump to its own address. -/
def HaltIsSelfJump (s : State) : Prop :=
  s.status = .halted → ∃ nnn : Imm12, nnn.toNat = s.pc.toNat ∧ s.fetch s.pc = some (encode (.jpNnn nnn))

/-- What holds of every state a run reaches: `I <= 0xFFF` (rule R23), `pc <= 0x10FE` (rule R22), return addresses at most
0x1000 (rule R83), memory in its canonical form (rule R27), the stack within its depth (rule R24), every frame handed
over with the screen's dimensions (rule R139), the run status true to the state (rules R160, R200), and a load still
allowed only while the core is running (rule R192). -/
structure Inv (s : State) : Prop where
  idx_le : s.idx.toNat ≤ 0xFFF
  pc_le : s.pc.toNat ≤ 0x10FE
  returns_le : ∀ r ∈ s.stack, r.toNat ≤ 0x1000
  mem_wf : Memory.wf s.cfg.font s.mem = true
  stack_within : StackWithinDepth s
  fault_true : FaultRecordTrue s
  halt_true : HaltIsSelfJump s
  frames_screen : ∀ f ∈ s.frames, f.width = 64 ∧ f.height = 32
  load_running : s.loadOpen = true → s.status = .running

/-- The states of a run (rules R194, R200): reset, and what a load, a step or a tick of the host leads to. -/
inductive Reachable (cfg : Config) : State → Prop where
  | reset : Reachable cfg (State.resetWith cfg)
  | act {s t : State} (action : HostAction) : Reachable cfg s → hostAct action s = .next t → Reachable cfg t

/-! ### The frame of an instruction -/

/-- The parts of the state beside the general registers that a step can change. -/
inductive Part where
  | pc | idx | stack | dt | fb | mem | status | draws | frames
  deriving DecidableEq, Repr

/-- `t` is `s` but for the listed parts and the registers in `dests`: every other register, every other part, every byte
of memory unless memory is listed, the parameters and the load window are as in `s`. -/
structure ChangesOnly (parts : List Part) (dests : List RegIx) (s t : State) : Prop where
  regs : ∀ r, r ∉ dests → t.getReg r = s.getReg r
  pc : .pc ∉ parts → t.pc = s.pc
  idx : .idx ∉ parts → t.idx = s.idx
  stack : .stack ∉ parts → t.stack = s.stack
  dt : .dt ∉ parts → t.dt = s.dt
  fb : .fb ∉ parts → t.fb = s.fb
  mem : .mem ∉ parts → ∀ a, t.readByte a = s.readByte a
  status : .status ∉ parts → t.status = s.status
  draws : .draws ∉ parts → t.draws = s.draws
  frames : .frames ∉ parts → t.frames = s.frames
  cfg : t.cfg = s.cfg
  loadOpen : t.loadOpen = s.loadOpen

/-- The step ends in a fault that records this cause and word, and changes nothing else (rule R160). -/
def FaultsWith (cause : Cause) (word : Option Word) (s t : State) : Prop :=
  t.status = .faulted cause word s.pc ∧ ChangesOnly [.status] [] s t

/-- The registers an instruction names as its destination (rules R102 to R113, R125, R126, R153, R154). -/
def destRegs (cfg : Config) (i : Instr) : List RegIx :=
  match i with
  | .ldVxNn x _ | .addVxNn x _ | .rndVxNn x _ => [x]
  | .ldVxVy x _ | .orVxVy x _ | .andVxVy x _ | .xorVxVy x _ => [x]
  | .addVxVy x _ | .subVxVy x _ | .shrVx x _ | .subnVxVy x _ | .shlVx x _ => [x]
  | .ldVxDt x | .ldVxK x => [x]
  | .ldVxMemI x => (List.range (if cfg.regxferInclusive then x.toNat + 1 else x.toNat)).map (BitVec.ofNat 4)
  | .cls | .ret | .jpNnn _ | .callNnn _ | .jpV0Nnn _ => []
  | .seVxNn _ _ | .sneVxNn _ _ | .seVxVy _ _ | .sneVxVy _ _ | .skpVx _ | .sknpVx _ => []
  | .ldINnn _ | .addIVx _ | .ldFVx _ | .ldBVx _ | .ldMemIVx _ => []
  | .drwVxVyN _ _ _ | .ldDtVx _ | .ldStVx _ => []

/-- The six instructions that write `VF` as a side effect (the table of rule R21). -/
def writesFlag (i : Instr) : Bool :=
  match i with
  | .addVxVy _ _ | .subVxVy _ _ | .shrVx _ _ | .subnVxVy _ _ | .shlVx _ _ | .drwVxVyN _ _ _ => true
  | _ => false

/-- The sprite bit that falls on a pixel in a draw at column `x0`, row `y0`, of the `n` rows at `I`; false outside the
sprite (rule R138). -/
def spriteBit (s : State) (x0 y0 n px py : Nat) : Bool :=
  if x0 ≤ px ∧ px < x0 + 8 ∧ y0 ≤ py ∧ py < y0 + n then
    (s.readByte (s.idx.toNat + (py - y0))).getLsbD (7 - (px - x0))
  else false

end Sys2Proof
end

