-- ==== Sys2Proof/Certificates/Slice0/Obligations.lean ====
section
/-!
DEFINITION. Certificates/Slice0/Obligations.lean: the statements for the provers. Each docstring names the rules of spec/ a
statement formalises, and the decisions D<n> of the spec (spec/92_eei_decisions.md) and the entries of notes/assumptions/ that
a clause rests on where the source is silent. `ChangesOnly parts dests s t` (Safety.lean) is the frame: `t` is `s` but for
the listed parts and registers. `exec` is given the state the step began in, so `s.pc` is the fetch address `a` of the rules.
-/

open Sys2Proof Sys2Proof.Machine

/-! ### Decoding and encoding -/

/-- Rules R61, R65, R71: decoding the word, or the bytes, of any instruction gives it back with every operand, at every
value. That Y of 8XY6 and 8XYE is an operand at all, though the operation ignores it, is the model's choice (DESIGN CHOICE,
notes/assumptions/21.md). -/
def Obligations.DecodeOfEncodeIsIdentity : Prop :=
  ∀ i : Instr, decodeWord (encode i) = some i ∧ ∀ rest, decode (encodeBytes i ++ rest) = .instr i rest

/-- Rules R61, R65: a word that decodes to an instruction of the model is the word `encode` gives for it, every field at its
place. That no two words decode to one term of `Instr`, and that no bit is dropped, is the model's choice for 8XY6 and 8XYE: the
spec makes every such word `SHR Vx` or `SHL Vx` whatever Y is, and the model's `shrVx` and `shlVx` carry the ignored Y as an
operand (DESIGN CHOICE, notes/assumptions/21.md). -/
def Obligations.EncodeOfDecodeIsIdentity : Prop :=
  ∀ (w : Word) (i : Instr), decodeWord w = some i → encode i = w

/-- Rules R65, R66: the decoder rejects a word exactly when it is in the table of illegal words, and exactly when no row of
the opcode table holds it. -/
def Obligations.RejectedWordsAreTheIllegalOnes : Prop :=
  ∀ w : Word, (decodeWord w = none ↔ legalWord w = false) ∧
    (decodeWord w = none ↔ ∀ row ∈ opcodeTable, row.holds w = false)

/-- Thirteen words chosen from spec/95_test_vectors.md: eight of the nine words section 2.1 decodes (all but 0x8F06), 0x6A3C of
section 2.4 and 0x332A of section 2.3 decode as listed there; 0x0000, 0x5121 and 0xF175, three of the words section 2.1 lists as
illegal, are rejected. The ignored Y of 0x83C6 is kept as an operand (the model's choice, notes/assumptions/21.md). -/
def Obligations.ListedWordsDecodeAsListed : Prop :=
  decodeWord 0xD123 = some (.drwVxVyN 0x1 0x2 0x3) ∧ decodeWord 0x8AB4 = some (.addVxVy 0xA 0xB) ∧
  decodeWord 0x00E0 = some .cls ∧ decodeWord 0x00EE = some .ret ∧ decodeWord 0xF965 = some (.ldVxMemI 0x9) ∧
  decodeWord 0xE0A1 = some (.sknpVx 0x0) ∧ decodeWord 0x83C6 = some (.shrVx 0x3 0xC) ∧
  decodeWord 0xBFFF = some (.jpV0Nnn 0xFFF) ∧ decodeWord 0x6A3C = some (.ldVxNn 0xA 0x3C) ∧
  decodeWord 0x332A = some (.seVxNn 0x3 0x2A) ∧ decodeWord 0x0000 = none ∧ decodeWord 0x5121 = none ∧ decodeWord 0xF175 = none

/-! ### The step -/

/-- Rule R64: when the two bytes at the pc of a running core decode to an instruction, the step is that instruction's
meaning in the state the environment's turn leaves, which differs from the core's in `DT`, by some number of ticks, and in
the model's own draw counter and load window only (the turn and these two fields are the model's choice, DESIGN CHOICE,
notes/assumptions/2.md, 3.md and 16.md). -/
def Obligations.StepRunsTheDecodedInstruction : Prop :=
  ∀ (s : State) (i : Instr), s.status = .running → s.pc.toNat ≤ 0xFFE →
    decodeWord (wordOfBytes (s.readByte s.pc.toNat) (s.readByte (s.pc.toNat + 1))) = some i →
    step s = exec i s.hostTurn ∧
    s.hostTurn = { s with dt := ticksDown (Config.ticksBefore s.draws) s.dt, draws := s.draws + 1, loadOpen := false }

/-- Rule R48: a fetch up to 0xFFE gives the big-endian word of two bytes, at odd addresses too, and above 0xFFE the step
raises `FetchBounds` with nothing changed, the pc included (the bound and the precise fault: decisions D5, D24). -/
def Obligations.FetchIsBigEndianAndBounded : Prop :=
  (∀ (s : State) (a : Word), a.toNat ≤ 0xFFE → ∃ w, s.fetch a = some w ∧
    w.toNat = 256 * (s.readByte a.toNat).toNat + (s.readByte (a.toNat + 1)).toNat) ∧
  (∀ s : State, s.status = .running → 0xFFE < s.pc.toNat →
    ∃ t, step s = .next t ∧ FaultsWith .fetchBounds none s.hostTurn t)

/-- Rule R162: a step whose fetched word is in the illegal set of rule R66 raises `DecodeFault` with the word and the fetch
address, and changes nothing else (decision D24). -/
def Obligations.IllegalWordRaisesDecodeFault : Prop :=
  ∀ (s : State) (w : Word), s.status = .running → s.fetch s.pc = some w → legalWord w = false →
    ∃ t, step s = .next t ∧ FaultsWith .decodeFault (some w) s.hostTurn t

/-- Rules R29, R172, R190: in `HALTED` and `FAULTED` no step exists and a timer tick changes nothing; in a state with the
invariant no action of the host but reset changes anything, and reset leads back to `RUNNING` (the stop as state: decision D21). -/
def Obligations.StoppedCoreIsAbsorbing : Prop :=
  ∀ s : State, s.status ≠ .running →
    (∃ f, step s = .fault f) ∧ hostAct .timerTick s = .next s ∧
    (∀ action t, Inv s → action ≠ .reset → hostAct action s = .next t → t = s) ∧
    ∃ t, hostAct .reset s = .next t ∧ t.status = .running

/-- Rules R160, R167, R170: a step of a running core completes with the status `RUNNING`, or halts on a jump to its own
address with nothing else changed, or faults with nothing else changed and a record of the fetch address and of the fetched
word, which is absent exactly for `FetchBounds` (the state at a halt and at a fault: decisions D6, D24). -/
def Obligations.StepCompletesHaltsOrFaultsPrecisely : Prop :=
  ∀ s : State, s.status = .running → ∃ t, step s = .next t ∧
    (t.status = .running ∨
     (t.status = .halted ∧ ChangesOnly [.status] [] s.hostTurn t ∧
       ∃ nnn : Imm12, nnn.toNat = s.pc.toNat ∧ s.fetch s.pc = some (encode (.jpNnn nnn))) ∨
     (∃ cause, FaultsWith cause (s.fetch s.pc) s.hostTurn t ∧ (cause = .fetchBounds ↔ s.fetch s.pc = none)))

/-- Rules R22, R23, R24, R27, R160, R167 and R192: every step keeps the invariant of the machine (`Inv`, Safety.lean): the
bounds of `I`, of the pc and of the return addresses, the canonical form of memory, the depth of the stack, and a run status
that is true to the state. It rests on the decisions D4 to D6, D10, D14, D24 and D25; its clauses on `frames` and `loadOpen` are
on fields that are the model's choice (DESIGN CHOICE, notes/assumptions/9.md and 16.md). -/
def Obligations.StepKeepsInv : Prop :=
  ∀ s t : State, Inv s → step s = .next t → Inv t

/-- The state after reset has the invariant, whatever the parameters (reset values: decision D10,
notes/assumptions/5.md). -/
def Obligations.ResetHasInv : Prop :=
  ∀ cfg : Config, Inv (State.resetWith cfg)

/-- The other actions of the host, reset, load and tick, keep the invariant as well (rule R194; reset values: decision
D10; when a load is allowed: decision D22). -/
def Obligations.HostActionsKeepInv : Prop :=
  ∀ (action : HostAction) (s t : State), action ≠ .step → Inv s → hostAct action s = .next t → Inv t

/-- Rules R23, R190, R192, R194: every state that reset, one load, steps and timer ticks lead to has the invariant, whatever
the parameters and the image (reset values: decision D10, notes/assumptions/5.md). -/
def Obligations.ReachableStatesHaveInv : Prop :=
  ∀ (cfg : Config) (s : State), Reachable cfg s → Inv s

/-! ### What only certain instructions change -/

/-- Rules R161, R170: in a running core only 1NNN halts, only 00EE raises `StackUnderflow`, only 2NNN `StackOverflow`, and only
DXYN, FX33, FX55 and FX65 `MemBounds`; no instruction raises another fault, and each records its own word (the faults the
spec adds: decisions D2, D4, D14). -/
def Obligations.StopsComeFromTheirInstructions : Prop :=
  ∀ (i : Instr) (s t : State), s.status = .running → exec i s = .next t →
    (t.status = .halted → ∃ nnn, i = .jpNnn nnn) ∧
    ∀ cause word addr, t.status = .faulted cause word addr → word = some (encode i) ∧ addr = s.pc ∧
      ((cause = .stackUnderflow ∧ i = .ret) ∨ (cause = .stackOverflow ∧ ∃ nnn, i = .callNnn nnn) ∨
       ((∃ bad, cause = .memBounds bad ∧ 0xFFF < bad) ∧
         ((∃ x y n, i = .drwVxVyN x y n) ∨ (∃ x, i = .ldBVx x) ∨ (∃ x, i = .ldMemIVx x) ∨ ∃ x, i = .ldVxMemI x)))

/-- Rule R26: the framebuffer is observed through the collision flag only: two states that differ in the framebuffer alone lead,
by any instruction, to states that differ in the framebuffer alone, but for `VF` and the frame handed over after a draw. -/
def Obligations.FramebufferIsSeenThroughTheFlagOnly : Prop :=
  ∀ (i : Instr) (s : State) (fb : Framebuffer), ∃ t u, exec i s = .next t ∧ exec i { s with fb := fb } = .next u ∧
    ChangesOnly [.fb, .frames] [0xF] t u ∧ ((∀ x y n, i ≠ .drwVxVyN x y n) → ChangesOnly [.fb] [] t u)

/-- Rule R40: of all instructions only FX33 and FX55 change a byte of main memory. -/
def Obligations.OnlyBcdAndStoreChangeMemory : Prop :=
  ∀ (i : Instr) (s t : State), exec i s = .next t → (∀ x, i ≠ .ldBVx x) → (∀ x, i ≠ .ldMemIVx x) →
    ∀ a, t.readByte a = s.readByte a

/-- Rules R26, R139: only DXYN, and 00E0 when `CLS_CLEARS`, change the framebuffer, and only DXYN hands a frame over
(decisions D1, D18). That the frames handed over are recorded in the field `frames` is the model's choice (DESIGN CHOICE,
notes/assumptions/9.md). -/
def Obligations.OnlyDrawAndClearChangeTheFramebuffer : Prop :=
  ∀ (i : Instr) (s t : State), exec i s = .next t → (∀ x y n, i ≠ .drwVxVyN x y n) →
    t.frames = s.frames ∧ ((i = .cls → s.cfg.clsClears = false) → t.fb = s.fb)

/-- Rule R24: only 2NNN pushes and only 00EE, with `RET_POPS`, pops; every other instruction leaves the call stack
(decisions D2, D14). -/
def Obligations.OnlyCallAndReturnChangeTheStack : Prop :=
  ∀ (i : Instr) (s t : State), exec i s = .next t →
    t.stack = s.stack ∨ ((∃ nnn, i = .callNnn nnn) ∧ t.stack = (s.pc + 2) :: s.stack) ∨
    (i = .ret ∧ s.cfg.retPops = true ∧ t.stack = s.stack.tail)

/-- Rules R23, R25: `I` is written by ANNN, FX1E and FX29 only, and never above 0xFFF; `DT` is written by FX15 only, and no
instruction decrements it (the range of `I`: decision D25; no side effect beyond the rows: decision D26). -/
def Obligations.OnlyTheirWritersChangeIndexAndTimer : Prop :=
  ∀ (i : Instr) (s t : State), exec i s = .next t →
    (t.idx = s.idx ∨ (t.idx.toNat ≤ 0xFFF ∧ ((∃ n, i = .ldINnn n) ∨ (∃ x, i = .addIVx x) ∨ ∃ x, i = .ldFVx x))) ∧
    (t.dt = s.dt ∨ ∃ x, i = .ldDtVx x)

/-- Rule R21: a register changes only as the destination an instruction names, but for `VF`, which the six instructions of
the table write too; when one of the six completes, `VF` holds 0x00 or 0x01 (the table as the complete list: decision D26;
the flag last: decision D7). -/
def Obligations.FlagIsWrittenByTheSixOnly : Prop :=
  ∀ (i : Instr) (s t : State), exec i s = .next t →
    (∀ r, r ∉ destRegs s.cfg i → (r = 0xF → writesFlag i = false) → t.getReg r = s.getReg r) ∧
    (writesFlag i = true → t.pc = s.pc + 2 → t.getReg 0xF = 0x00 ∨ t.getReg 0xF = 0x01)

/-- Rule R22: where an instruction leaves the pc: `a + 2`; `a + 4` for a skip; `a` for FX0A, a halt or a fault; its target
for 1NNN, 2NNN and BNNN; the newest stack entry for 00EE with `RET_POPS` (decisions D2, D5, D6, D24). -/
def Obligations.ProgramCounterSuccessors : Prop :=
  ∀ (i : Instr) (s t : State), exec i s = .next t →
    match i with
    | .seVxNn _ _ | .sneVxNn _ _ | .seVxVy _ _ | .sneVxVy _ _ | .skpVx _ | .sknpVx _ =>
      t.pc = s.pc + 2 ∨ t.pc = s.pc + 4
    | .jpNnn nnn => t.pc.toNat = nnn.toNat
    | .callNnn nnn => t.pc.toNat = nnn.toNat ∨ (t.pc = s.pc ∧ s.cfg.stackDepth = some s.stack.length)
    | .jpV0Nnn nnn => t.pc.toNat = nnn.toNat + (s.getReg 0x0).toNat
    | .ret => t.pc = s.pc + 2 ∨ (s.cfg.retPops = true ∧ (s.stack.head? = some t.pc ∨ (s.stack = [] ∧ t.pc = s.pc)))
    | .ldVxK _ => t.pc = s.pc ∨ t.pc = s.pc + 2
    | .drwVxVyN _ _ _ | .ldBVx _ | .ldMemIVx _ | .ldVxMemI _ =>
      t.pc = s.pc + 2 ∨ (t.pc = s.pc ∧ ∃ bad word, t.status = .faulted (.memBounds bad) word s.pc)
    | _ => t.pc = s.pc + 2

/-! ### Control transfer -/

/-- Rule R82: a jump to its own address halts with the pc at that address and nothing else changed (decision D6); any other
jump goes on at its target. -/
def Obligations.JumpGoesToTargetOrHalts : Prop :=
  ∀ (nnn : Imm12) (s : State), ∃ t, exec (.jpNnn nnn) s = .next t ∧ t.pc.toNat = nnn.toNat ∧
    if nnn.toNat = s.pc.toNat then t.status = .halted ∧ ChangesOnly [.status] [] s t
    else ChangesOnly [.pc] [] s t

/-- Rules R83, R166: a call on a stack that is not full pushes the address of the instruction after it and jumps; on a full
stack it raises `StackOverflow` and changes nothing else (decision D14). -/
def Obligations.CallPushesReturnAddressOrOverflows : Prop :=
  ∀ (nnn : Imm12) (s : State),
    (s.cfg.stackDepth ≠ some s.stack.length → ∃ t, exec (.callNnn nnn) s = .next t ∧
      t.stack = (s.pc + 2) :: s.stack ∧ t.pc.toNat = nnn.toNat ∧ ChangesOnly [.pc, .stack] [] s t) ∧
    (s.cfg.stackDepth = some s.stack.length → ∃ t, exec (.callNnn nnn) s = .next t ∧
      FaultsWith .stackOverflow (some (encode (.callNnn nnn))) s t)

/-- Rules R81, R165: without `RET_POPS` 00EE only advances; with it, it pops the newest entry into the pc, and on an empty
stack raises `StackUnderflow` (decision D2). -/
def Obligations.ReturnAdvancesPopsOrUnderflows : Prop :=
  ∀ s : State,
    (s.cfg.retPops = false → ∃ t, exec .ret s = .next t ∧ t.pc = s.pc + 2 ∧ ChangesOnly [.pc] [] s t) ∧
    (∀ top rest, s.cfg.retPops = true → s.stack = top :: rest → ∃ t, exec .ret s = .next t ∧
      t.pc = top ∧ t.stack = rest ∧ ChangesOnly [.pc, .stack] [] s t) ∧
    (s.cfg.retPops = true → s.stack = [] → ∃ t, exec .ret s = .next t ∧ FaultsWith .stackUnderflow (some 0x00EE) s t)

/-- Rule R84: BNNN jumps to the integer sum of `NNN` and `V[0]`, not masked, with no self-jump halt; when the sum is above
0xFFE the next step of the running core raises `FetchBounds` (decision D5). -/
def Obligations.OffsetJumpAddsV0 : Prop :=
  ∀ (nnn : Imm12) (s : State), ∃ t, exec (.jpV0Nnn nnn) s = .next t ∧
    t.pc.toNat = nnn.toNat + (s.getReg 0x0).toNat ∧ ChangesOnly [.pc] [] s t ∧
    (s.status = .running → 0xFFE < nnn.toNat + (s.getReg 0x0).toNat →
      ∃ u, step t = .next u ∧ FaultsWith .fetchBounds none t.hostTurn u)

/-! ### Skips -/

/-- Rules R91, R92: 3XNN skips when `V[X]` equals the immediate, 4XNN when it does not. -/
def Obligations.ImmediateSkips : Prop :=
  ∀ (x : RegIx) (nn : Byte) (s : State),
    (∃ t, exec (.seVxNn x nn) s = .next t ∧
      t.pc = (if (s.getReg x).toNat = nn.toNat then s.pc + 4 else s.pc + 2) ∧ ChangesOnly [.pc] [] s t) ∧
    (∃ t, exec (.sneVxNn x nn) s = .next t ∧
      t.pc = (if (s.getReg x).toNat = nn.toNat then s.pc + 2 else s.pc + 4) ∧ ChangesOnly [.pc] [] s t)

/-- Rules R93, R94: 5XY0 skips when the two registers are equal, 9XY0 when they differ; with X = Y the first always skips
and the second never. -/
def Obligations.RegisterSkips : Prop :=
  ∀ (x y : RegIx) (s : State),
    (∃ t, exec (.seVxVy x y) s = .next t ∧
      t.pc = (if x = y ∨ (s.getReg x).toNat = (s.getReg y).toNat then s.pc + 4 else s.pc + 2) ∧ ChangesOnly [.pc] [] s t) ∧
    (∃ t, exec (.sneVxVy x y) s = .next t ∧
      t.pc = (if x = y ∨ (s.getReg x).toNat = (s.getReg y).toNat then s.pc + 2 else s.pc + 4) ∧ ChangesOnly [.pc] [] s t)

/-! ### Registers, arithmetic, logic, shifts, random -/

/-- Rules R102, R104: 6XNN loads the immediate and 8XY0 copies a register; `VF` changes only as the destination. -/
def Obligations.LoadsWriteTheDestination : Prop :=
  ∀ (x y : RegIx) (nn : Byte) (s : State),
    (∃ t, exec (.ldVxNn x nn) s = .next t ∧ t.getReg x = nn ∧ t.pc = s.pc + 2 ∧ ChangesOnly [.pc] [x] s t) ∧
    (∃ t, exec (.ldVxVy x y) s = .next t ∧ t.getReg x = s.getReg y ∧ t.pc = s.pc + 2 ∧ ChangesOnly [.pc] [x] s t)

/-- Rule R103: 7XNN adds modulo 256 and writes no flag. -/
def Obligations.AddImmediateWrapsWithoutFlag : Prop :=
  ∀ (x : RegIx) (nn : Byte) (s : State), ∃ t, exec (.addVxNn x nn) s = .next t ∧
    (t.getReg x).toNat = ((s.getReg x).toNat + nn.toNat) % 256 ∧ t.pc = s.pc + 2 ∧ ChangesOnly [.pc] [x] s t

/-- Rules R105, R106, R107: or, and, exclusive or, bit by bit, with `VF` changed only as the destination (the spec derives
that from rule R21, decision D26). -/
def Obligations.LogicWorksBitByBit : Prop :=
  ∀ (x y : RegIx) (s : State),
    (∃ t, exec (.orVxVy x y) s = .next t ∧ t.pc = s.pc + 2 ∧ ChangesOnly [.pc] [x] s t ∧
      ∀ k < 8, (t.getReg x).getLsbD k = ((s.getReg x).getLsbD k || (s.getReg y).getLsbD k)) ∧
    (∃ t, exec (.andVxVy x y) s = .next t ∧ t.pc = s.pc + 2 ∧ ChangesOnly [.pc] [x] s t ∧
      ∀ k < 8, (t.getReg x).getLsbD k = ((s.getReg x).getLsbD k && (s.getReg y).getLsbD k)) ∧
    (∃ t, exec (.xorVxVy x y) s = .next t ∧ t.pc = s.pc + 2 ∧ ChangesOnly [.pc] [x] s t ∧
      ∀ k < 8, (t.getReg x).getLsbD k = ((s.getReg x).getLsbD k ^^ (s.getReg y).getLsbD k))

/-- Rules R108, R101: 8XY4 writes the sum modulo 256 to `V[X]` and then the carry to `VF`
(when X is 0xF the flag stays: decision D7). -/
def Obligations.AddWritesSumThenCarry : Prop :=
  ∀ (x y : RegIx) (s : State), ∃ t, exec (.addVxVy x y) s = .next t ∧
    (x ≠ 0xF → (t.getReg x).toNat = ((s.getReg x).toNat + (s.getReg y).toNat) % 256) ∧
    t.getReg 0xF = (if (s.getReg x).toNat + (s.getReg y).toNat > 255 then 0x01 else 0x00) ∧
    t.pc = s.pc + 2 ∧ ChangesOnly [.pc] [x, 0xF] s t

/-- Rules R109, R101: 8XY5 writes `V[X] - V[Y]` modulo 256 to `V[X]` and then the complement of the borrow to `VF`
(when X is 0xF the flag stays: decision D7). -/
def Obligations.SubWritesDifferenceThenNoBorrow : Prop :=
  ∀ (x y : RegIx) (s : State), ∃ t, exec (.subVxVy x y) s = .next t ∧
    (x ≠ 0xF → ((t.getReg x).toNat : Int) = ((s.getReg x).toNat - (s.getReg y).toNat : Int) % 256) ∧
    t.getReg 0xF = (if (s.getReg x).toNat ≥ (s.getReg y).toNat then 0x01 else 0x00) ∧
    t.pc = s.pc + 2 ∧ ChangesOnly [.pc] [x, 0xF] s t

/-- Rules R111, R101: 8XY7 writes `V[Y] - V[X]` modulo 256 to `V[X]` and then the complement of the borrow to `VF`
(when X is 0xF the flag stays: decision D7). -/
def Obligations.SubnWritesReverseDifferenceThenNoBorrow : Prop :=
  ∀ (x y : RegIx) (s : State), ∃ t, exec (.subnVxVy x y) s = .next t ∧
    (x ≠ 0xF → ((t.getReg x).toNat : Int) = ((s.getReg y).toNat - (s.getReg x).toNat : Int) % 256) ∧
    t.getReg 0xF = (if (s.getReg y).toNat ≥ (s.getReg x).toNat then 0x01 else 0x00) ∧
    t.pc = s.pc + 2 ∧ ChangesOnly [.pc] [x, 0xF] s t

/-- Rules R110, R101: 8XY6 halves `V[X]`, whatever `Y` is, and then writes its old bit 0 to `VF`
(when X is 0xF the flag stays: decision D7). -/
def Obligations.ShrHalvesThenLowBit : Prop :=
  ∀ (x y : RegIx) (s : State), ∃ t, exec (.shrVx x y) s = .next t ∧
    (x ≠ 0xF → (t.getReg x).toNat = (s.getReg x).toNat / 2) ∧
    (t.getReg 0xF).toNat = (s.getReg x).toNat % 2 ∧
    t.pc = s.pc + 2 ∧ ChangesOnly [.pc] [x, 0xF] s t

/-- Rules R112, R101: 8XYE doubles `V[X]` modulo 256, whatever `Y` is, and then writes its old bit 7 to `VF`
(when X is 0xF the flag stays: decision D7). -/
def Obligations.ShlDoublesThenHighBit : Prop :=
  ∀ (x y : RegIx) (s : State), ∃ t, exec (.shlVx x y) s = .next t ∧
    (x ≠ 0xF → (t.getReg x).toNat = 2 * (s.getReg x).toNat % 256) ∧
    (t.getReg 0xF).toNat = (s.getReg x).toNat / 128 ∧
    t.pc = s.pc + 2 ∧ ChangesOnly [.pc] [x, 0xF] s t

/-- Rule R113: CXNN makes one draw and writes the drawn byte under the mask to `V[X]`, with no bit outside the mask; `I` is
not touched (decisions D12, D17). That the draw is a free value with a number, and that the counter `draws` advances by one, is
the model's choice (DESIGN CHOICE, notes/assumptions/2.md). It holds for every value the draw can have. -/
def Obligations.RandomByteIsMasked : Prop :=
  ∀ (x : RegIx) (nn : Byte) (s : State), ∃ t, exec (.rndVxNn x nn) s = .next t ∧
    t.getReg x = Config.randByte s.draws &&& nn ∧ t.getReg x &&& ~~~nn = 0x00 ∧ t.draws = s.draws + 1 ∧
    t.pc = s.pc + 2 ∧ ChangesOnly [.pc, .draws] [x] s t

/-! ### Index register and memory -/

/-- Rule R120: ANNN loads `I` with the immediate. -/
def Obligations.IndexLoadsImmediate : Prop :=
  ∀ (nnn : Imm12) (s : State), ∃ t, exec (.ldINnn nnn) s = .next t ∧ t.idx.toNat = nnn.toNat ∧ t.pc = s.pc + 2 ∧
    ChangesOnly [.pc, .idx] [] s t

/-- Rule R122: FX29 loads `I` with `0x050 + V[X] * 5`, the whole register value (no nibble mask: decision D16), which never
exceeds 0x54B. -/
def Obligations.GlyphAddressUsesTheWholeRegister : Prop :=
  ∀ (x : RegIx) (s : State), ∃ t, exec (.ldFVx x) s = .next t ∧ t.idx.toNat = 0x050 + (s.getReg x).toNat * 5 ∧
    t.idx.toNat ≤ 0x54B ∧ t.pc = s.pc + 2 ∧ ChangesOnly [.pc, .idx] [] s t

/-- Rule R121: FX1E adds `V[X]` to `I` modulo 4096 and writes no flag (the spec derives that from rule R21, decision
D26). -/
def Obligations.IndexAddWrapsAtTwelveBits : Prop :=
  ∀ (x : RegIx) (s : State), ∃ t, exec (.addIVx x) s = .next t ∧
    t.idx.toNat = (s.idx.toNat + (s.getReg x).toNat) % 4096 ∧ t.pc = s.pc + 2 ∧ ChangesOnly [.pc, .idx] [] s t

/-- Rule R123: FX33 stores the three decimal digits of `V[X]` at `I`, `I + 1`, `I + 2` and no other byte; when `I + 2` is
above 0xFFF it raises `MemBounds(0x1000)` and writes nothing (decision D4). `I <= 0xFFF` is part of `Inv`. -/
def Obligations.BcdStoresThreeDigits : Prop :=
  ∀ (x : RegIx) (s : State),
    (s.idx.toNat + 2 ≤ 0xFFF → ∃ t, exec (.ldBVx x) s = .next t ∧
      (t.readByte s.idx.toNat).toNat = (s.getReg x).toNat / 100 ∧
      (t.readByte (s.idx.toNat + 1)).toNat = (s.getReg x).toNat / 10 % 10 ∧
      (t.readByte (s.idx.toNat + 2)).toNat = (s.getReg x).toNat % 10 ∧
      (∀ a, a < s.idx.toNat ∨ s.idx.toNat + 2 < a → t.readByte a = s.readByte a) ∧
      t.pc = s.pc + 2 ∧ ChangesOnly [.pc, .mem] [] s t) ∧
    (0xFFF < s.idx.toNat + 2 → s.idx.toNat ≤ 0xFFF → ∃ t, exec (.ldBVx x) s = .next t ∧
      FaultsWith (.memBounds 0x1000) (some (encode (.ldBVx x))) s t)

/-- Rules R124, R126: FX55 stores `V[0]`, `V[1]`, ... at `I`, `I + 1`, ..., `X` registers, or `X + 1` with
`REGXFER_INCLUSIVE`, and no other byte; when the last address is above 0xFFF it raises `MemBounds(0x1000)` and writes
nothing; with no register to move it accesses nothing and cannot fault (decisions D3, D4). -/
def Obligations.StoreRegistersAscending : Prop :=
  ∀ (x : RegIx) (s : State) (count : Nat), count = (if s.cfg.regxferInclusive then x.toNat + 1 else x.toNat) →
    (count = 0 ∨ s.idx.toNat + count - 1 ≤ 0xFFF → ∃ t, exec (.ldMemIVx x) s = .next t ∧
      (∀ r : RegIx, r.toNat < count → t.readByte (s.idx.toNat + r.toNat) = s.getReg r) ∧
      (∀ a, a < s.idx.toNat ∨ s.idx.toNat + count ≤ a → t.readByte a = s.readByte a) ∧
      t.pc = s.pc + 2 ∧ ChangesOnly [.pc, .mem] [] s t) ∧
    (0 < count → 0xFFF < s.idx.toNat + count - 1 → s.idx.toNat ≤ 0xFFF → ∃ t, exec (.ldMemIVx x) s = .next t ∧
      FaultsWith (.memBounds 0x1000) (some (encode (.ldMemIVx x))) s t)

/-- Rules R125, R126: FX65 loads `V[0]`, `V[1]`, ... from `I`, `I + 1`, ..., `X` registers, or `X + 1` with
`REGXFER_INCLUSIVE`, and no other register; when the last address is above 0xFFF it raises `MemBounds(0x1000)` and writes
no register (decisions D3, D4). -/
def Obligations.LoadRegistersAscending : Prop :=
  ∀ (x : RegIx) (s : State) (count : Nat), count = (if s.cfg.regxferInclusive then x.toNat + 1 else x.toNat) →
    (count = 0 ∨ s.idx.toNat + count - 1 ≤ 0xFFF → ∃ t, exec (.ldVxMemI x) s = .next t ∧
      (∀ r : RegIx, t.getReg r = if r.toNat < count then s.readByte (s.idx.toNat + r.toNat) else s.getReg r) ∧
      t.pc = s.pc + 2 ∧ ChangesOnly [.pc] (destRegs s.cfg (.ldVxMemI x)) s t) ∧
    (0 < count → 0xFFF < s.idx.toNat + count - 1 → s.idx.toNat ≤ 0xFFF → ∃ t, exec (.ldVxMemI x) s = .next t ∧
      FaultsWith (.memBounds 0x1000) (some (encode (.ldVxMemI x))) s t)

/-- Rules R44, R53: two registers stored by FX55 are fetched as a word with `V[0]` as its high byte by the very next fetch,
with no other action. -/
def Obligations.StoredRegistersAreFetchedNext : Prop :=
  ∀ (x : RegIx) (s : State), 2 ≤ x.toNat → s.idx.toNat + x.toNat ≤ 0xFFF →
    ∃ t w, exec (.ldMemIVx x) s = .next t ∧ t.fetch s.idx = some w ∧
      w.toNat = 256 * (s.getReg 0x0).toNat + (s.getReg 0x1).toNat

/-! ### Framebuffer, clear and draw -/

/-- Rule R131: the byte, the bit and the mask of a pixel, and the mapping from the 2048 pixels to the 2048 bits of the
framebuffer is a bijection. -/
def Obligations.PixelAddressingIsBijective : Prop :=
  (∀ (x : Fin 64) (y : Fin 32), (pixelByte x y).val = y.val * 8 + x.val / 8 ∧ pixelBit x = 7 - x.val % 8 ∧
    (pixelMask x).toNat = 2 ^ (7 - x.val % 8)) ∧
  (∀ (x x' : Fin 64) (y y' : Fin 32), pixelByte x y = pixelByte x' y' → pixelBit x = pixelBit x' → x = x' ∧ y = y') ∧
  (∀ (k : Fin 256) (b : Fin 8), ∃ (x : Fin 64) (y : Fin 32), pixelByte x y = k ∧ pixelBit x = b.val)

/-- Rule R140, laws (a) to (e): get after set, set leaves the other pixels, xor twice restores the framebuffer, xor with 0
and xor outside the screen change nothing and, outside, report PIXEL_OFF. -/
def Obligations.EngineLaws : Prop :=
  (∀ fb x y v, fbGet (fbSet fb x y v) x y = v) ∧
  (∀ fb x y v x' y', (x', y') ≠ (x, y) → fbGet (fbSet fb x y v) x' y' = fbGet fb x' y') ∧
  (∀ (fb : Framebuffer) (x y : Nat) (b : Bool), x < 64 → y < 32 → (fbXor (fbXor fb x y b).1 x y b).1 = fb) ∧
  (∀ (fb : Framebuffer) (x y : Nat), (fbXor fb x y false).1 = fb) ∧
  (∀ (fb : Framebuffer) (x y : Nat) (b : Bool), 64 ≤ x ∨ 32 ≤ y → fbXor fb x y b = (fb, false))

/-- Rule R136: 00E0 zeroes all 256 bytes of the framebuffer when `CLS_CLEARS`, and else only advances; it writes no flag and
hands no frame over (decisions D1, D18). -/
def Obligations.ClearZeroesOrOnlyAdvances : Prop :=
  ∀ s : State, ∃ t, exec .cls s = .next t ∧ t.pc = s.pc + 2 ∧
    if s.cfg.clsClears then (∀ k : Fin 256, t.fb[k] = 0x00) ∧ ChangesOnly [.pc, .fb] [] s t
    else ChangesOnly [.pc] [] s t

/-- Rules R137, R138, R139: a draw whose sprite lies in memory XORs every pixel of the screen with the sprite bit that falls
on it, from column `V[X] mod 64` and row `V[Y] mod 32`, with nothing wrapped; `VF` becomes 1 exactly when a sprite bit of 1
fell on a pixel that was on; one frame is handed over, the new framebuffer with the screen's dimensions (position read
before `VF` is written: decision D8; the frame: decision D18). That the frame handed over is recorded in the field `frames` is the
model's choice (DESIGN CHOICE, notes/assumptions/9.md). -/
def Obligations.DrawXorsPixelsAndFlagsCollision : Prop :=
  ∀ (x y : RegIx) (n : Nibble) (s : State) (x0 y0 : Nat),
    x0 = (s.getReg x).toNat % 64 → y0 = (s.getReg y).toNat % 32 →
    n.toNat = 0 ∨ s.idx.toNat + n.toNat - 1 ≤ 0xFFF →
    ∃ t, exec (.drwVxVyN x y n) s = .next t ∧
      (∀ (px : Fin 64) (py : Fin 32), fbGet t.fb px py = (fbGet s.fb px py ^^ spriteBit s x0 y0 n.toNat px py)) ∧
      ((∃ (px : Fin 64) (py : Fin 32), spriteBit s x0 y0 n.toNat px py = true ∧ fbGet s.fb px py = true) →
        t.getReg 0xF = 0x01) ∧
      ((∀ (px : Fin 64) (py : Fin 32), spriteBit s x0 y0 n.toNat px py = true → fbGet s.fb px py = false) →
        t.getReg 0xF = 0x00) ∧
      t.frames = { pixels := t.fb, width := 64, height := 32 } :: s.frames ∧
      t.pc = s.pc + 2 ∧ ChangesOnly [.pc, .fb, .frames] [0xF] s t

/-- Rules R138, R164: a draw of at least one row whose last sprite byte is above 0xFFF raises `MemBounds(0x1000)`: no flag,
no pixel and no frame (decisions D4, D9). `I <= 0xFFF` is part of `Inv`. -/
def Obligations.DrawOutsideMemoryFaults : Prop :=
  ∀ (x y : RegIx) (n : Nibble) (s : State), 0 < n.toNat → 0xFFF < s.idx.toNat + n.toNat - 1 → s.idx.toNat ≤ 0xFFF →
    ∃ t, exec (.drwVxVyN x y n) s = .next t ∧ FaultsWith (.memBounds 0x1000) (some (encode (.drwVxVyN x y n))) s t

/-- Rule R138: drawing the same sprite twice at the same position, from registers other than `VF`, restores the framebuffer,
and the second draw ends with `VF` = 1 exactly when a sprite bit of 1 falls on a pixel that was off before the first. (Corner
case 8 of the rule says so of every sprite with a bit of 1 on the screen: notes/assumptions/17.md.) -/
def Obligations.DrawingTwiceRestores : Prop :=
  ∀ (x y : RegIx) (n : Nibble) (s : State) (x0 y0 : Nat), x ≠ 0xF → y ≠ 0xF →
    x0 = (s.getReg x).toNat % 64 → y0 = (s.getReg y).toNat % 32 →
    n.toNat = 0 ∨ s.idx.toNat + n.toNat - 1 ≤ 0xFFF →
    ∃ t u, exec (.drwVxVyN x y n) s = .next t ∧ exec (.drwVxVyN x y n) t = .next u ∧ u.fb = s.fb ∧
      (u.getReg 0xF = 0x01 ↔
        ∃ (px : Fin 64) (py : Fin 32), spriteBit s x0 y0 n.toNat px py = true ∧ fbGet s.fb px py = false)

/-! ### Keys and timer -/

/-- Rules R151, R152: EX9E skips when the environment answers that the key with the code `V[X]` is held, EXA1 when it
answers that it is not, and nothing else of the core changes. That the answer is a free value with a number, and that the counter
`draws` advances by one, is the model's choice (DESIGN CHOICE, notes/assumptions/2.md; decision D11): the counter is no state of
the core. It holds for every answer. -/
def Obligations.KeySkips : Prop :=
  ∀ (x : RegIx) (s : State),
    (∃ t, exec (.skpVx x) s = .next t ∧ t.draws = s.draws + 1 ∧ ChangesOnly [.pc, .draws] [] s t ∧
      t.pc = if Config.keyHeld s.draws (s.getReg x) = true then s.pc + 4 else s.pc + 2) ∧
    (∃ t, exec (.sknpVx x) s = .next t ∧ t.draws = s.draws + 1 ∧ ChangesOnly [.pc, .draws] [] s t ∧
      t.pc = if Config.keyHeld s.draws (s.getReg x) = true then s.pc + 2 else s.pc + 4)

/-- Rule R153: with no key held FX0A leaves every piece of the core's state as it was, to be executed again; with a key its code
goes to `V[X]` and the pc advances. That the answer is a free value with a number, and that the counter `draws` advances by one, is
the model's choice (DESIGN CHOICE, notes/assumptions/2.md; decision D11): the counter is no state of the core, and it is the one
part that changes when no key is held. It holds for every answer. -/
def Obligations.KeyWaitRewindsOrStoresTheKey : Prop :=
  ∀ (x : RegIx) (s : State), ∃ t, exec (.ldVxK x) s = .next t ∧ t.draws = s.draws + 1 ∧
    if Config.keyCurrent s.draws = 0xFF then ChangesOnly [.draws] [] s t
    else t.getReg x = Config.keyCurrent s.draws ∧ t.pc = s.pc + 2 ∧ ChangesOnly [.pc, .draws] [x] s t

/-- Rules R154, R155, R156: FX07 reads `DT`, FX15 writes it, FX18 only advances. -/
def Obligations.TimerInstructions : Prop :=
  ∀ (x : RegIx) (s : State),
    (∃ t, exec (.ldVxDt x) s = .next t ∧ t.getReg x = s.dt ∧ t.pc = s.pc + 2 ∧ ChangesOnly [.pc] [x] s t) ∧
    (∃ t, exec (.ldDtVx x) s = .next t ∧ t.dt = s.getReg x ∧ t.pc = s.pc + 2 ∧ ChangesOnly [.pc, .dt] [] s t) ∧
    (∃ t, exec (.ldStVx x) s = .next t ∧ t.pc = s.pc + 2 ∧ ChangesOnly [.pc] [] s t)

/-! ### The host -/

/-- Rule R175: a tick of a running core takes 1 from `DT`, never below 0, and changes nothing else; the ticks of the
environment's turn before a step are that many such ticks (decision D13, notes/assumptions/3.md). -/
def Obligations.TimerTickDecrementsToZero : Prop :=
  (∀ s : State, s.status = .running → ∃ t, hostAct .timerTick s = .next t ∧ t.dt.toNat = s.dt.toNat - 1 ∧
    ChangesOnly [.dt] [] s t) ∧
  (∀ s : State, s.status = .running → s.hostTurn.dt = (Nat.repeat State.timerTick (Config.ticksBefore s.draws) s).dt)

/-- Rules R33, R190: reset, in any run status, leaves the pc at 0x200, the framebuffer zero and the font table at 0x050, as
the source states, and by the spec's decision D10 (notes/assumptions/5.md) the registers, `I`, `DT` and the rest of memory zero and
the stack empty, and by D21 the core running. Three clauses are on fields of the model's own and are the model's choice (DESIGN
CHOICE): the parameters are kept and the record of frames is emptied (notes/assumptions/1.md, notes/assumptions/8.md), and a load is
allowed again, `loadOpen` (notes/assumptions/16.md). -/
def Obligations.ResetLeavesTheResetState : Prop :=
  ∀ s : State, ∃ t, hostAct .reset s = .next t ∧
    t.pc = 0x200 ∧ (∀ k : Fin 256, t.fb[k] = 0x00) ∧ (∀ k : Fin 80, t.readByte (0x050 + k.val) = s.cfg.font[k]) ∧
    (∀ r, t.getReg r = 0x00) ∧ t.idx = 0x000 ∧ t.dt = 0x00 ∧ t.stack = [] ∧ t.status = .running ∧
    (∀ a, a < 0x050 ∨ 0x0A0 ≤ a → t.readByte a = 0x00) ∧ t.cfg = s.cfg ∧ t.loadOpen = true ∧ t.frames = []

/-- Rules R43, R192: a load of at most 3584 bytes, after reset and before the first step, writes the image from 0x200 upward
and changes nothing else; a longer image is refused; a second load, or a load after a step, is refused (decision D22). That the
model's own field `loadOpen` says when a load is allowed, and closes with it, is the model's choice (DESIGN CHOICE,
notes/assumptions/16.md). -/
def Obligations.LoadWritesTheImageOrIsRefused : Prop :=
  ∀ (image : List Byte) (s : State),
    (s.loadOpen = true → image.length ≤ 3584 → ∃ t, hostAct (.load image) s = .next t ∧
      (∀ k (h : k < image.length), t.readByte (0x200 + k) = image[k]) ∧
      (∀ a, a < 0x200 ∨ 0x200 + image.length ≤ a → t.readByte a = s.readByte a) ∧
      t.loadOpen = false ∧ ChangesOnly [.mem] [] { s with loadOpen := false } t) ∧
    (s.loadOpen = true → 3584 < image.length → hostAct (.load image) s = .refused (.imageTooLong image.length)) ∧
    (s.loadOpen = false → hostAct (.load image) s = .refused .loadNotAllowed)
end

