-- ==== Sys2Proof/Laws/Decode.lean ====
section
/-!
SUPPORT. Laws/Decode.lean: the fields of a packed word, a packed word under the table's masks, and the number a pair of
bytes forms.
-/
namespace Sys2Proof

/-! ### Fields of packed words (rules R61, R62) -/

@[simp] theorem fieldType_packNNN (t : Nibble) (nnn : Imm12) : fieldType (packNNN t nnn) = t := by
  unfold fieldType packNNN
  ext i h; simp [BitVec.getElem_extractLsb']; grind
@[simp] theorem fieldNNN_packNNN (t : Nibble) (nnn : Imm12) : fieldNNN (packNNN t nnn) = nnn := by
  unfold fieldNNN packNNN
  ext i h; simp [BitVec.getElem_extractLsb']; grind

@[simp] theorem fieldType_packXNN (t : Nibble) (x : RegIx) (nn : Byte) : fieldType (packXNN t x nn) = t := by
  unfold fieldType packXNN
  ext i h; simp [BitVec.getElem_extractLsb']; grind
@[simp] theorem fieldX_packXNN (t : Nibble) (x : RegIx) (nn : Byte) : fieldX (packXNN t x nn) = x := by
  unfold fieldX packXNN
  ext i h; simp [BitVec.getElem_extractLsb']; grind
@[simp] theorem fieldNN_packXNN (t : Nibble) (x : RegIx) (nn : Byte) : fieldNN (packXNN t x nn) = nn := by
  unfold fieldNN packXNN
  ext i h; simp [BitVec.getElem_extractLsb']; grind

@[simp] theorem fieldType_packXYN (t : Nibble) (x y : RegIx) (n : Nibble) : fieldType (packXYN t x y n) = t := by
  unfold fieldType packXYN
  ext i h; simp [BitVec.getElem_extractLsb']; grind
@[simp] theorem fieldX_packXYN (t : Nibble) (x y : RegIx) (n : Nibble) : fieldX (packXYN t x y n) = x := by
  unfold fieldX packXYN
  ext i h; simp [BitVec.getElem_extractLsb']; grind
@[simp] theorem fieldY_packXYN (t : Nibble) (x y : RegIx) (n : Nibble) : fieldY (packXYN t x y n) = y := by
  unfold fieldY packXYN
  ext i h; simp [BitVec.getElem_extractLsb']; grind
@[simp] theorem fieldN_packXYN (t : Nibble) (x y : RegIx) (n : Nibble) : fieldN (packXYN t x y n) = n := by
  unfold fieldN packXYN
  ext i h; simp [BitVec.getElem_extractLsb']; grind

/-! ### A word is what its fields pack to -/

theorem packNNN_fields (w : Word) : packNNN (fieldType w) (fieldNNN w) = w := by
  unfold packNNN fieldType fieldNNN
  ext i h; grind
theorem packXNN_fields (w : Word) : packXNN (fieldType w) (fieldX w) (fieldNN w) = w := by
  unfold packXNN fieldType fieldX fieldNN
  ext i h; grind
theorem packXYN_fields (w : Word) : packXYN (fieldType w) (fieldX w) (fieldY w) (fieldN w) = w := by
  unfold packXYN fieldType fieldX fieldY fieldN
  ext i h; grind

/-! ### Packed words under the masks of the opcode table -/

theorem lt_sixteen_cases {i : Nat} (h : i < 16) : i = 0 ∨ i = 1 ∨ i = 2 ∨ i = 3 ∨ i = 4 ∨ i = 5 ∨ i = 6 ∨ i = 7 ∨ i = 8 ∨
    i = 9 ∨ i = 10 ∨ i = 11 ∨ i = 12 ∨ i = 13 ∨ i = 14 ∨ i = 15 := by omega

theorem packNNN_and_type (t : Nibble) (nnn : Imm12) : packNNN t nnn &&& 0xF000 = t ++ (0 : Imm12) := by
  unfold packNNN
  ext i h
  rcases lt_sixteen_cases h with h | h | h | h | h | h | h | h | h | h | h | h | h | h | h | h <;>
    subst h <;> simp <;> grind
theorem packXNN_and_type (t : Nibble) (x : RegIx) (nn : Byte) :
    packXNN t x nn &&& 0xF000 = t ++ (0 : Imm12) := by
  unfold packXNN
  ext i h
  rcases lt_sixteen_cases h with h | h | h | h | h | h | h | h | h | h | h | h | h | h | h | h <;>
    subst h <;> simp <;> grind
theorem packXNN_and_type_nn (t : Nibble) (x : RegIx) (nn : Byte) :
    packXNN t x nn &&& 0xF0FF = t ++ (0 : RegIx) ++ nn := by
  unfold packXNN
  ext i h
  rcases lt_sixteen_cases h with h | h | h | h | h | h | h | h | h | h | h | h | h | h | h | h <;>
    subst h <;> simp <;> grind
theorem packXYN_and_type (t : Nibble) (x y : RegIx) (n : Nibble) : packXYN t x y n &&& 0xF000 = t ++ (0 : Imm12) := by
  unfold packXYN
  ext i h
  rcases lt_sixteen_cases h with h | h | h | h | h | h | h | h | h | h | h | h | h | h | h | h <;>
    subst h <;> simp <;> grind
theorem packXYN_and_type_n (t : Nibble) (x y : RegIx) (n : Nibble) :
    packXYN t x y n &&& 0xF00F = t ++ (0 : Byte) ++ n := by
  unfold packXYN
  ext i h
  rcases lt_sixteen_cases h with h | h | h | h | h | h | h | h | h | h | h | h | h | h | h | h <;>
    subst h <;> simp <;> grind

/-! ### A word's fields as numbers, and the word under the masks of the opcode table -/

theorem fieldType_toNat (w : Word) : (fieldType w).toNat = w.toNat / 4096 := by
  unfold fieldType; rw [BitVec.extractLsb'_toNat]; simp [Nat.shiftRight_eq_div_pow]; omega
theorem fieldN_toNat (w : Word) : (fieldN w).toNat = w.toNat % 16 := by
  unfold fieldN; rw [BitVec.extractLsb'_toNat]; simp
theorem fieldNN_toNat (w : Word) : (fieldNN w).toNat = w.toNat % 256 := by
  unfold fieldNN; rw [BitVec.extractLsb'_toNat]; simp

theorem and_type (w : Word) : w &&& 0xF000 = fieldType w ++ (0 : Imm12) := by
  conv => lhs; rw [← packNNN_fields w]
  exact packNNN_and_type _ _
theorem and_type_n (w : Word) : w &&& 0xF00F = fieldType w ++ (0 : Byte) ++ fieldN w := by
  conv => lhs; rw [← packXYN_fields w]
  exact packXYN_and_type_n _ _ _ _
theorem and_type_nn (w : Word) : w &&& 0xF0FF = fieldType w ++ (0 : RegIx) ++ fieldNN w := by
  conv => lhs; rw [← packXNN_fields w]
  exact packXNN_and_type_nn _ _ _

/-! ### Bytes and words (rule R44) -/

theorem wordOfBytes_toNat (hi lo : Byte) : (wordOfBytes hi lo).toNat = 256 * hi.toNat + lo.toNat := by
  unfold wordOfBytes
  rw [BitVec.toNat_append, Nat.shiftLeft_eq, Nat.mul_comm, ← Nat.two_pow_add_eq_or_of_lt lo.isLt]

theorem wordOfBytes_split (w : Word) : wordOfBytes (w.extractLsb' 8 8) (w.extractLsb' 0 8) = w := by
  unfold wordOfBytes
  ext i h; grind

end Sys2Proof
end

