-- ==== Sys2Proof/Laws/State.lean ====
section
/-!
SUPPORT. Laws/State.lean: what each update does to each field, and to the reads through `getReg`, `readByte` and
`fetch`; every lemma is true by definition, so that no later proof unfolds a record update.
-/
namespace Sys2Proof.Machine

variable (s : State)

/-! ### `State.setReg` -/

@[simp] theorem State.setReg_v (r : RegIx) (b : Byte) : (s.setReg r b).v = s.v.set r.toNat b := rfl
@[simp] theorem State.setReg_pc (r : RegIx) (b : Byte) : (s.setReg r b).pc = s.pc := rfl
@[simp] theorem State.setReg_idx (r : RegIx) (b : Byte) : (s.setReg r b).idx = s.idx := rfl
@[simp] theorem State.setReg_stack (r : RegIx) (b : Byte) : (s.setReg r b).stack = s.stack := rfl
@[simp] theorem State.setReg_dt (r : RegIx) (b : Byte) : (s.setReg r b).dt = s.dt := rfl
@[simp] theorem State.setReg_fb (r : RegIx) (b : Byte) : (s.setReg r b).fb = s.fb := rfl
@[simp] theorem State.setReg_mem (r : RegIx) (b : Byte) : (s.setReg r b).mem = s.mem := rfl
@[simp] theorem State.setReg_status (r : RegIx) (b : Byte) : (s.setReg r b).status = s.status := rfl
@[simp] theorem State.setReg_cfg (r : RegIx) (b : Byte) : (s.setReg r b).cfg = s.cfg := rfl
@[simp] theorem State.setReg_draws (r : RegIx) (b : Byte) : (s.setReg r b).draws = s.draws := rfl
@[simp] theorem State.setReg_frames (r : RegIx) (b : Byte) : (s.setReg r b).frames = s.frames := rfl
@[simp] theorem State.setReg_loadOpen (r : RegIx) (b : Byte) : (s.setReg r b).loadOpen = s.loadOpen := rfl
@[simp] theorem State.setReg_readByte (r : RegIx) (b : Byte) (k : Nat) : (s.setReg r b).readByte k = s.readByte k := rfl
@[simp] theorem State.setReg_fetch (r : RegIx) (b : Byte) (k : Word) : (s.setReg r b).fetch k = s.fetch k := rfl

/-! ### `State.setPc` -/

@[simp] theorem State.setPc_v (p : Word) : (s.setPc p).v = s.v := rfl
@[simp] theorem State.setPc_pc (p : Word) : (s.setPc p).pc = p := rfl
@[simp] theorem State.setPc_idx (p : Word) : (s.setPc p).idx = s.idx := rfl
@[simp] theorem State.setPc_stack (p : Word) : (s.setPc p).stack = s.stack := rfl
@[simp] theorem State.setPc_dt (p : Word) : (s.setPc p).dt = s.dt := rfl
@[simp] theorem State.setPc_fb (p : Word) : (s.setPc p).fb = s.fb := rfl
@[simp] theorem State.setPc_mem (p : Word) : (s.setPc p).mem = s.mem := rfl
@[simp] theorem State.setPc_status (p : Word) : (s.setPc p).status = s.status := rfl
@[simp] theorem State.setPc_cfg (p : Word) : (s.setPc p).cfg = s.cfg := rfl
@[simp] theorem State.setPc_draws (p : Word) : (s.setPc p).draws = s.draws := rfl
@[simp] theorem State.setPc_frames (p : Word) : (s.setPc p).frames = s.frames := rfl
@[simp] theorem State.setPc_loadOpen (p : Word) : (s.setPc p).loadOpen = s.loadOpen := rfl
@[simp] theorem State.setPc_getReg (p : Word) (q : RegIx) : (s.setPc p).getReg q = s.getReg q := rfl
@[simp] theorem State.setPc_readByte (p : Word) (k : Nat) : (s.setPc p).readByte k = s.readByte k := rfl
@[simp] theorem State.setPc_fetch (p : Word) (k : Word) : (s.setPc p).fetch k = s.fetch k := rfl

/-! ### `State.advance` -/

@[simp] theorem State.advance_v : (s.advance).v = s.v := rfl
@[simp] theorem State.advance_pc : (s.advance).pc = s.pc + 2 := rfl
@[simp] theorem State.advance_idx : (s.advance).idx = s.idx := rfl
@[simp] theorem State.advance_stack : (s.advance).stack = s.stack := rfl
@[simp] theorem State.advance_dt : (s.advance).dt = s.dt := rfl
@[simp] theorem State.advance_fb : (s.advance).fb = s.fb := rfl
@[simp] theorem State.advance_mem : (s.advance).mem = s.mem := rfl
@[simp] theorem State.advance_status : (s.advance).status = s.status := rfl
@[simp] theorem State.advance_cfg : (s.advance).cfg = s.cfg := rfl
@[simp] theorem State.advance_draws : (s.advance).draws = s.draws := rfl
@[simp] theorem State.advance_frames : (s.advance).frames = s.frames := rfl
@[simp] theorem State.advance_loadOpen : (s.advance).loadOpen = s.loadOpen := rfl
@[simp] theorem State.advance_getReg (q : RegIx) : (s.advance).getReg q = s.getReg q := rfl
@[simp] theorem State.advance_readByte (k : Nat) : (s.advance).readByte k = s.readByte k := rfl
@[simp] theorem State.advance_fetch (k : Word) : (s.advance).fetch k = s.fetch k := rfl

/-! ### `State.skipIf` -/

@[simp] theorem State.skipIf_v (c : Bool) : (s.skipIf c).v = s.v := rfl
@[simp] theorem State.skipIf_pc (c : Bool) : (s.skipIf c).pc = if c then s.pc + 2 else s.pc := rfl
@[simp] theorem State.skipIf_idx (c : Bool) : (s.skipIf c).idx = s.idx := rfl
@[simp] theorem State.skipIf_stack (c : Bool) : (s.skipIf c).stack = s.stack := rfl
@[simp] theorem State.skipIf_dt (c : Bool) : (s.skipIf c).dt = s.dt := rfl
@[simp] theorem State.skipIf_fb (c : Bool) : (s.skipIf c).fb = s.fb := rfl
@[simp] theorem State.skipIf_mem (c : Bool) : (s.skipIf c).mem = s.mem := rfl
@[simp] theorem State.skipIf_status (c : Bool) : (s.skipIf c).status = s.status := rfl
@[simp] theorem State.skipIf_cfg (c : Bool) : (s.skipIf c).cfg = s.cfg := rfl
@[simp] theorem State.skipIf_draws (c : Bool) : (s.skipIf c).draws = s.draws := rfl
@[simp] theorem State.skipIf_frames (c : Bool) : (s.skipIf c).frames = s.frames := rfl
@[simp] theorem State.skipIf_loadOpen (c : Bool) : (s.skipIf c).loadOpen = s.loadOpen := rfl
@[simp] theorem State.skipIf_getReg (c : Bool) (q : RegIx) : (s.skipIf c).getReg q = s.getReg q := rfl
@[simp] theorem State.skipIf_readByte (c : Bool) (k : Nat) : (s.skipIf c).readByte k = s.readByte k := rfl
@[simp] theorem State.skipIf_fetch (c : Bool) (k : Word) : (s.skipIf c).fetch k = s.fetch k := rfl

/-! ### `State.setIdx` -/

@[simp] theorem State.setIdx_v (p : Word) : (s.setIdx p).v = s.v := rfl
@[simp] theorem State.setIdx_pc (p : Word) : (s.setIdx p).pc = s.pc := rfl
@[simp] theorem State.setIdx_idx (p : Word) : (s.setIdx p).idx = p := rfl
@[simp] theorem State.setIdx_stack (p : Word) : (s.setIdx p).stack = s.stack := rfl
@[simp] theorem State.setIdx_dt (p : Word) : (s.setIdx p).dt = s.dt := rfl
@[simp] theorem State.setIdx_fb (p : Word) : (s.setIdx p).fb = s.fb := rfl
@[simp] theorem State.setIdx_mem (p : Word) : (s.setIdx p).mem = s.mem := rfl
@[simp] theorem State.setIdx_status (p : Word) : (s.setIdx p).status = s.status := rfl
@[simp] theorem State.setIdx_cfg (p : Word) : (s.setIdx p).cfg = s.cfg := rfl
@[simp] theorem State.setIdx_draws (p : Word) : (s.setIdx p).draws = s.draws := rfl
@[simp] theorem State.setIdx_frames (p : Word) : (s.setIdx p).frames = s.frames := rfl
@[simp] theorem State.setIdx_loadOpen (p : Word) : (s.setIdx p).loadOpen = s.loadOpen := rfl
@[simp] theorem State.setIdx_getReg (p : Word) (q : RegIx) : (s.setIdx p).getReg q = s.getReg q := rfl
@[simp] theorem State.setIdx_readByte (p : Word) (k : Nat) : (s.setIdx p).readByte k = s.readByte k := rfl
@[simp] theorem State.setIdx_fetch (p : Word) (k : Word) : (s.setIdx p).fetch k = s.fetch k := rfl

/-! ### `State.setDt` -/

@[simp] theorem State.setDt_v (b : Byte) : (s.setDt b).v = s.v := rfl
@[simp] theorem State.setDt_pc (b : Byte) : (s.setDt b).pc = s.pc := rfl
@[simp] theorem State.setDt_idx (b : Byte) : (s.setDt b).idx = s.idx := rfl
@[simp] theorem State.setDt_stack (b : Byte) : (s.setDt b).stack = s.stack := rfl
@[simp] theorem State.setDt_dt (b : Byte) : (s.setDt b).dt = b := rfl
@[simp] theorem State.setDt_fb (b : Byte) : (s.setDt b).fb = s.fb := rfl
@[simp] theorem State.setDt_mem (b : Byte) : (s.setDt b).mem = s.mem := rfl
@[simp] theorem State.setDt_status (b : Byte) : (s.setDt b).status = s.status := rfl
@[simp] theorem State.setDt_cfg (b : Byte) : (s.setDt b).cfg = s.cfg := rfl
@[simp] theorem State.setDt_draws (b : Byte) : (s.setDt b).draws = s.draws := rfl
@[simp] theorem State.setDt_frames (b : Byte) : (s.setDt b).frames = s.frames := rfl
@[simp] theorem State.setDt_loadOpen (b : Byte) : (s.setDt b).loadOpen = s.loadOpen := rfl
@[simp] theorem State.setDt_getReg (b : Byte) (q : RegIx) : (s.setDt b).getReg q = s.getReg q := rfl
@[simp] theorem State.setDt_readByte (b : Byte) (k : Nat) : (s.setDt b).readByte k = s.readByte k := rfl
@[simp] theorem State.setDt_fetch (b : Byte) (k : Word) : (s.setDt b).fetch k = s.fetch k := rfl

/-! ### `State.push` -/

@[simp] theorem State.push_v (p : Word) : (s.push p).v = s.v := rfl
@[simp] theorem State.push_pc (p : Word) : (s.push p).pc = s.pc := rfl
@[simp] theorem State.push_idx (p : Word) : (s.push p).idx = s.idx := rfl
@[simp] theorem State.push_stack (p : Word) : (s.push p).stack = p :: s.stack := rfl
@[simp] theorem State.push_dt (p : Word) : (s.push p).dt = s.dt := rfl
@[simp] theorem State.push_fb (p : Word) : (s.push p).fb = s.fb := rfl
@[simp] theorem State.push_mem (p : Word) : (s.push p).mem = s.mem := rfl
@[simp] theorem State.push_status (p : Word) : (s.push p).status = s.status := rfl
@[simp] theorem State.push_cfg (p : Word) : (s.push p).cfg = s.cfg := rfl
@[simp] theorem State.push_draws (p : Word) : (s.push p).draws = s.draws := rfl
@[simp] theorem State.push_frames (p : Word) : (s.push p).frames = s.frames := rfl
@[simp] theorem State.push_loadOpen (p : Word) : (s.push p).loadOpen = s.loadOpen := rfl
@[simp] theorem State.push_getReg (p : Word) (q : RegIx) : (s.push p).getReg q = s.getReg q := rfl
@[simp] theorem State.push_readByte (p : Word) (k : Nat) : (s.push p).readByte k = s.readByte k := rfl
@[simp] theorem State.push_fetch (p : Word) (k : Word) : (s.push p).fetch k = s.fetch k := rfl

/-! ### `State.dropTop` -/

@[simp] theorem State.dropTop_v : (s.dropTop).v = s.v := rfl
@[simp] theorem State.dropTop_pc : (s.dropTop).pc = s.pc := rfl
@[simp] theorem State.dropTop_idx : (s.dropTop).idx = s.idx := rfl
@[simp] theorem State.dropTop_stack : (s.dropTop).stack = s.stack.tail := rfl
@[simp] theorem State.dropTop_dt : (s.dropTop).dt = s.dt := rfl
@[simp] theorem State.dropTop_fb : (s.dropTop).fb = s.fb := rfl
@[simp] theorem State.dropTop_mem : (s.dropTop).mem = s.mem := rfl
@[simp] theorem State.dropTop_status : (s.dropTop).status = s.status := rfl
@[simp] theorem State.dropTop_cfg : (s.dropTop).cfg = s.cfg := rfl
@[simp] theorem State.dropTop_draws : (s.dropTop).draws = s.draws := rfl
@[simp] theorem State.dropTop_frames : (s.dropTop).frames = s.frames := rfl
@[simp] theorem State.dropTop_loadOpen : (s.dropTop).loadOpen = s.loadOpen := rfl
@[simp] theorem State.dropTop_getReg (q : RegIx) : (s.dropTop).getReg q = s.getReg q := rfl
@[simp] theorem State.dropTop_readByte (k : Nat) : (s.dropTop).readByte k = s.readByte k := rfl
@[simp] theorem State.dropTop_fetch (k : Word) : (s.dropTop).fetch k = s.fetch k := rfl

/-! ### `State.setFb` -/

@[simp] theorem State.setFb_v (f : Framebuffer) : (s.setFb f).v = s.v := rfl
@[simp] theorem State.setFb_pc (f : Framebuffer) : (s.setFb f).pc = s.pc := rfl
@[simp] theorem State.setFb_idx (f : Framebuffer) : (s.setFb f).idx = s.idx := rfl
@[simp] theorem State.setFb_stack (f : Framebuffer) : (s.setFb f).stack = s.stack := rfl
@[simp] theorem State.setFb_dt (f : Framebuffer) : (s.setFb f).dt = s.dt := rfl
@[simp] theorem State.setFb_fb (f : Framebuffer) : (s.setFb f).fb = f := rfl
@[simp] theorem State.setFb_mem (f : Framebuffer) : (s.setFb f).mem = s.mem := rfl
@[simp] theorem State.setFb_status (f : Framebuffer) : (s.setFb f).status = s.status := rfl
@[simp] theorem State.setFb_cfg (f : Framebuffer) : (s.setFb f).cfg = s.cfg := rfl
@[simp] theorem State.setFb_draws (f : Framebuffer) : (s.setFb f).draws = s.draws := rfl
@[simp] theorem State.setFb_frames (f : Framebuffer) : (s.setFb f).frames = s.frames := rfl
@[simp] theorem State.setFb_loadOpen (f : Framebuffer) : (s.setFb f).loadOpen = s.loadOpen := rfl
@[simp] theorem State.setFb_getReg (f : Framebuffer) (q : RegIx) : (s.setFb f).getReg q = s.getReg q := rfl
@[simp] theorem State.setFb_readByte (f : Framebuffer) (k : Nat) : (s.setFb f).readByte k = s.readByte k := rfl
@[simp] theorem State.setFb_fetch (f : Framebuffer) (k : Word) : (s.setFb f).fetch k = s.fetch k := rfl

/-! ### `State.emitFrame` -/

@[simp] theorem State.emitFrame_v : (s.emitFrame).v = s.v := rfl
@[simp] theorem State.emitFrame_pc : (s.emitFrame).pc = s.pc := rfl
@[simp] theorem State.emitFrame_idx : (s.emitFrame).idx = s.idx := rfl
@[simp] theorem State.emitFrame_stack : (s.emitFrame).stack = s.stack := rfl
@[simp] theorem State.emitFrame_dt : (s.emitFrame).dt = s.dt := rfl
@[simp] theorem State.emitFrame_fb : (s.emitFrame).fb = s.fb := rfl
@[simp] theorem State.emitFrame_mem : (s.emitFrame).mem = s.mem := rfl
@[simp] theorem State.emitFrame_status : (s.emitFrame).status = s.status := rfl
@[simp] theorem State.emitFrame_cfg : (s.emitFrame).cfg = s.cfg := rfl
@[simp] theorem State.emitFrame_draws : (s.emitFrame).draws = s.draws := rfl
@[simp] theorem State.emitFrame_frames : (s.emitFrame).frames = { pixels := s.fb } :: s.frames := rfl
@[simp] theorem State.emitFrame_loadOpen : (s.emitFrame).loadOpen = s.loadOpen := rfl
@[simp] theorem State.emitFrame_getReg (q : RegIx) : (s.emitFrame).getReg q = s.getReg q := rfl
@[simp] theorem State.emitFrame_readByte (k : Nat) : (s.emitFrame).readByte k = s.readByte k := rfl
@[simp] theorem State.emitFrame_fetch (k : Word) : (s.emitFrame).fetch k = s.fetch k := rfl

/-! ### `State.nextDraw` -/

@[simp] theorem State.nextDraw_v : (s.nextDraw).v = s.v := rfl
@[simp] theorem State.nextDraw_pc : (s.nextDraw).pc = s.pc := rfl
@[simp] theorem State.nextDraw_idx : (s.nextDraw).idx = s.idx := rfl
@[simp] theorem State.nextDraw_stack : (s.nextDraw).stack = s.stack := rfl
@[simp] theorem State.nextDraw_dt : (s.nextDraw).dt = s.dt := rfl
@[simp] theorem State.nextDraw_fb : (s.nextDraw).fb = s.fb := rfl
@[simp] theorem State.nextDraw_mem : (s.nextDraw).mem = s.mem := rfl
@[simp] theorem State.nextDraw_status : (s.nextDraw).status = s.status := rfl
@[simp] theorem State.nextDraw_cfg : (s.nextDraw).cfg = s.cfg := rfl
@[simp] theorem State.nextDraw_draws : (s.nextDraw).draws = s.draws + 1 := rfl
@[simp] theorem State.nextDraw_frames : (s.nextDraw).frames = s.frames := rfl
@[simp] theorem State.nextDraw_loadOpen : (s.nextDraw).loadOpen = s.loadOpen := rfl
@[simp] theorem State.nextDraw_getReg (q : RegIx) : (s.nextDraw).getReg q = s.getReg q := rfl
@[simp] theorem State.nextDraw_readByte (k : Nat) : (s.nextDraw).readByte k = s.readByte k := rfl
@[simp] theorem State.nextDraw_fetch (k : Word) : (s.nextDraw).fetch k = s.fetch k := rfl

/-! ### `State.raise` -/

@[simp] theorem State.raise_v (c : Cause) (w : Option Word) : (s.raise c w).v = s.v := rfl
@[simp] theorem State.raise_pc (c : Cause) (w : Option Word) : (s.raise c w).pc = s.pc := rfl
@[simp] theorem State.raise_idx (c : Cause) (w : Option Word) : (s.raise c w).idx = s.idx := rfl
@[simp] theorem State.raise_stack (c : Cause) (w : Option Word) : (s.raise c w).stack = s.stack := rfl
@[simp] theorem State.raise_dt (c : Cause) (w : Option Word) : (s.raise c w).dt = s.dt := rfl
@[simp] theorem State.raise_fb (c : Cause) (w : Option Word) : (s.raise c w).fb = s.fb := rfl
@[simp] theorem State.raise_mem (c : Cause) (w : Option Word) : (s.raise c w).mem = s.mem := rfl
@[simp] theorem State.raise_status (c : Cause) (w : Option Word) : (s.raise c w).status = .faulted c w s.pc := rfl
@[simp] theorem State.raise_cfg (c : Cause) (w : Option Word) : (s.raise c w).cfg = s.cfg := rfl
@[simp] theorem State.raise_draws (c : Cause) (w : Option Word) : (s.raise c w).draws = s.draws := rfl
@[simp] theorem State.raise_frames (c : Cause) (w : Option Word) : (s.raise c w).frames = s.frames := rfl
@[simp] theorem State.raise_loadOpen (c : Cause) (w : Option Word) : (s.raise c w).loadOpen = s.loadOpen := rfl
@[simp] theorem State.raise_getReg (c : Cause) (w : Option Word) (q : RegIx) : (s.raise c w).getReg q = s.getReg q := rfl
@[simp] theorem State.raise_readByte (c : Cause) (w : Option Word) (k : Nat) : (s.raise c w).readByte k = s.readByte k := rfl
@[simp] theorem State.raise_fetch (c : Cause) (w : Option Word) (k : Word) : (s.raise c w).fetch k = s.fetch k := rfl

/-! ### `State.halt` -/

@[simp] theorem State.halt_v : (s.halt).v = s.v := rfl
@[simp] theorem State.halt_pc : (s.halt).pc = s.pc := rfl
@[simp] theorem State.halt_idx : (s.halt).idx = s.idx := rfl
@[simp] theorem State.halt_stack : (s.halt).stack = s.stack := rfl
@[simp] theorem State.halt_dt : (s.halt).dt = s.dt := rfl
@[simp] theorem State.halt_fb : (s.halt).fb = s.fb := rfl
@[simp] theorem State.halt_mem : (s.halt).mem = s.mem := rfl
@[simp] theorem State.halt_status : (s.halt).status = .halted := rfl
@[simp] theorem State.halt_cfg : (s.halt).cfg = s.cfg := rfl
@[simp] theorem State.halt_draws : (s.halt).draws = s.draws := rfl
@[simp] theorem State.halt_frames : (s.halt).frames = s.frames := rfl
@[simp] theorem State.halt_loadOpen : (s.halt).loadOpen = s.loadOpen := rfl
@[simp] theorem State.halt_getReg (q : RegIx) : (s.halt).getReg q = s.getReg q := rfl
@[simp] theorem State.halt_readByte (k : Nat) : (s.halt).readByte k = s.readByte k := rfl
@[simp] theorem State.halt_fetch (k : Word) : (s.halt).fetch k = s.fetch k := rfl

/-! ### `State.writeByte` -/

@[simp] theorem State.writeByte_v (a : Nat) (b : Byte) : (s.writeByte a b).v = s.v := rfl
@[simp] theorem State.writeByte_pc (a : Nat) (b : Byte) : (s.writeByte a b).pc = s.pc := rfl
@[simp] theorem State.writeByte_idx (a : Nat) (b : Byte) : (s.writeByte a b).idx = s.idx := rfl
@[simp] theorem State.writeByte_stack (a : Nat) (b : Byte) : (s.writeByte a b).stack = s.stack := rfl
@[simp] theorem State.writeByte_dt (a : Nat) (b : Byte) : (s.writeByte a b).dt = s.dt := rfl
@[simp] theorem State.writeByte_fb (a : Nat) (b : Byte) : (s.writeByte a b).fb = s.fb := rfl
@[simp] theorem State.writeByte_mem (a : Nat) (b : Byte) : (s.writeByte a b).mem = Memory.write s.cfg.font s.mem a b := rfl
@[simp] theorem State.writeByte_status (a : Nat) (b : Byte) : (s.writeByte a b).status = s.status := rfl
@[simp] theorem State.writeByte_cfg (a : Nat) (b : Byte) : (s.writeByte a b).cfg = s.cfg := rfl
@[simp] theorem State.writeByte_draws (a : Nat) (b : Byte) : (s.writeByte a b).draws = s.draws := rfl
@[simp] theorem State.writeByte_frames (a : Nat) (b : Byte) : (s.writeByte a b).frames = s.frames := rfl
@[simp] theorem State.writeByte_loadOpen (a : Nat) (b : Byte) : (s.writeByte a b).loadOpen = s.loadOpen := rfl
@[simp] theorem State.writeByte_getReg (a : Nat) (b : Byte) (q : RegIx) : (s.writeByte a b).getReg q = s.getReg q := rfl

/-! ### `State.hostTurn` -/

@[simp] theorem State.hostTurn_v : (s.hostTurn).v = s.v := rfl
@[simp] theorem State.hostTurn_pc : (s.hostTurn).pc = s.pc := rfl
@[simp] theorem State.hostTurn_idx : (s.hostTurn).idx = s.idx := rfl
@[simp] theorem State.hostTurn_stack : (s.hostTurn).stack = s.stack := rfl
@[simp] theorem State.hostTurn_dt : (s.hostTurn).dt = ticksDown (Config.ticksBefore s.draws) s.dt := rfl
@[simp] theorem State.hostTurn_fb : (s.hostTurn).fb = s.fb := rfl
@[simp] theorem State.hostTurn_mem : (s.hostTurn).mem = s.mem := rfl
@[simp] theorem State.hostTurn_status : (s.hostTurn).status = s.status := rfl
@[simp] theorem State.hostTurn_cfg : (s.hostTurn).cfg = s.cfg := rfl
@[simp] theorem State.hostTurn_draws : (s.hostTurn).draws = s.draws + 1 := rfl
@[simp] theorem State.hostTurn_frames : (s.hostTurn).frames = s.frames := rfl
@[simp] theorem State.hostTurn_loadOpen : (s.hostTurn).loadOpen = false := rfl
@[simp] theorem State.hostTurn_getReg (q : RegIx) : (s.hostTurn).getReg q = s.getReg q := rfl
@[simp] theorem State.hostTurn_readByte (k : Nat) : (s.hostTurn).readByte k = s.readByte k := rfl
@[simp] theorem State.hostTurn_fetch (k : Word) : (s.hostTurn).fetch k = s.fetch k := rfl

end Sys2Proof.Machine
end

