-- ==== Sys2Proof/Laws/Memory.lean ====
section
/-!
SUPPORT. Laws/Memory.lean: reading after writing, and that every memory operation keeps the canonical form.
-/
namespace Sys2Proof.Machine

/-! ### One byte -/

theorem Memory.lookup_insert (m : List Host.Cell) (a b : Nat) (value : Byte) :
    Memory.lookup (Memory.insert m a value) b = if b = a then some value else Memory.lookup m b := by
  induction m with
  | nil => simp [Memory.insert, Memory.lookup, eq_comm]
  | cons cell rest ih =>
    unfold Memory.insert
    split
    · by_cases h : b = a
      · simp [Memory.lookup, h]
      · have h' : ¬ a = b := fun e => h e.symm
        simp [Memory.lookup, h, h']
    · split
      · by_cases h : b = a <;> simp_all [Memory.lookup, eq_comm]
      · simp only [Memory.lookup, ih]
        split <;> split <;> first | rfl | omega

theorem Memory.lookup_erase (m : List Host.Cell) (a b : Nat) :
    Memory.lookup (Memory.erase m a) b = if b = a then none else Memory.lookup m b := by
  induction m with
  | nil => simp [Memory.erase, Memory.lookup]
  | cons cell rest ih =>
    simp only [Memory.erase]
    split
    · rw [ih]
      by_cases h : b = a
      · simp [h]
      · have : cell.1 ≠ b := by omega
        simp [Memory.lookup, h, this]
    · simp only [Memory.lookup, ih]
      split <;> split <;> first | rfl | omega

/-- A read after a write gives the value written, and a write leaves every other address alone. -/
theorem Memory.read_write (font : Vector Byte 80) (m : List Host.Cell) (a b : Nat) (value : Byte) :
    Memory.read font (Memory.write font m a value) b = if b = a then value else Memory.read font m b := by
  unfold Memory.read Memory.write
  split
  · rw [Memory.lookup_erase]
    split <;> simp_all
  · rw [Memory.lookup_insert]
    split <;> simp_all

@[simp] theorem State.readByte_writeByte (s : State) (a b : Nat) (value : Byte) :
    (s.writeByte a value).readByte b = if b = a then value else s.readByte b :=
  Memory.read_write s.cfg.font s.mem a b value

/-! ### The canonical form -/

theorem Memory.risingFrom_mono {low low' : Nat} (h : low ≤ low') {m : List Host.Cell} (hm : Memory.risingFrom low' m = true) :
    Memory.risingFrom low m = true := by
  cases m with
  | nil => rfl
  | cons cell rest => simp_all [Memory.risingFrom]; omega

theorem Memory.risingFrom_insert {low a : Nat} (value : Byte) (h : low ≤ a) {m : List Host.Cell}
    (hm : Memory.risingFrom low m = true) : Memory.risingFrom low (Memory.insert m a value) = true := by
  induction m generalizing low with
  | nil => simp [Memory.insert, Memory.risingFrom, h]
  | cons cell rest ih =>
    simp only [Memory.risingFrom, Bool.and_eq_true, decide_eq_true_eq] at hm
    unfold Memory.insert
    split
    · simp only [Memory.risingFrom, Bool.and_eq_true, decide_eq_true_eq]
      exact ⟨h, by omega, hm.2⟩
    · split
      · simp_all [Memory.risingFrom]
      · simp only [Memory.risingFrom, Bool.and_eq_true, decide_eq_true_eq]
        exact ⟨hm.1, ih (by omega) hm.2⟩

theorem Memory.risingFrom_erase {low : Nat} (a : Nat) {m : List Host.Cell} (hm : Memory.risingFrom low m = true) :
    Memory.risingFrom low (Memory.erase m a) = true := by
  induction m generalizing low with
  | nil => rfl
  | cons cell rest ih =>
    simp only [Memory.risingFrom, Bool.and_eq_true, decide_eq_true_eq] at hm
    unfold Memory.erase
    split
    · exact ih (Memory.risingFrom_mono (by omega) hm.2)
    · simp only [Memory.risingFrom, Bool.and_eq_true, decide_eq_true_eq]
      exact ⟨hm.1, ih hm.2⟩

theorem Memory.all_insert {p : Host.Cell → Bool} {a : Nat} {value : Byte} (hp : p (a, value) = true) {m : List Host.Cell}
    (hm : m.all p = true) : (Memory.insert m a value).all p = true := by
  induction m with
  | nil => simp [Memory.insert, hp]
  | cons cell rest ih =>
    simp only [List.all_cons, Bool.and_eq_true] at hm
    unfold Memory.insert
    split
    · simp_all
    · split <;> simp_all

theorem Memory.all_erase {p : Host.Cell → Bool} (a : Nat) {m : List Host.Cell} (hm : m.all p = true) :
    (Memory.erase m a).all p = true := by
  induction m with
  | nil => rfl
  | cons cell rest ih =>
    simp only [List.all_cons, Bool.and_eq_true] at hm
    unfold Memory.erase
    split <;> simp_all

/-- A write below 0x1000 keeps the canonical form. -/
theorem Memory.wf_write (font : Vector Byte 80) {m : List Host.Cell} {a : Nat} (ha : a < 0x1000) (value : Byte)
    (hm : Memory.wf font m = true) : Memory.wf font (Memory.write font m a value) = true := by
  simp only [Memory.wf, Bool.and_eq_true] at hm ⊢
  unfold Memory.write
  split
  · exact ⟨Memory.risingFrom_erase a hm.1, Memory.all_erase a hm.2⟩
  · rename_i hv
    exact ⟨Memory.risingFrom_insert value (Nat.zero_le a) hm.1, Memory.all_insert (by simp [ha, hv]) hm.2⟩

theorem State.resetWith_mem_wf (cfg : Config) : Memory.wf cfg.font (State.resetWith cfg).mem = true := rfl

/-! ### Several bytes -/

/-- What storing bytes in a row does: memory alone changes. -/
theorem State.writeBytes_eq (bytes : List Byte) (s : State) (base : Nat) :
    s.writeBytes base bytes = { s with mem := (s.writeBytes base bytes).mem } := by
  induction bytes generalizing s base with
  | nil => rfl
  | cons b rest ih =>
    unfold State.writeBytes
    rw [ih (s.writeByte base b) (base + 1)]
    rfl

@[simp] theorem State.writeBytes_v (s : State) (base : Nat) (bytes : List Byte) :
    (s.writeBytes base bytes).v = s.v := by rw [State.writeBytes_eq]
@[simp] theorem State.writeBytes_pc (s : State) (base : Nat) (bytes : List Byte) :
    (s.writeBytes base bytes).pc = s.pc := by rw [State.writeBytes_eq]
@[simp] theorem State.writeBytes_idx (s : State) (base : Nat) (bytes : List Byte) :
    (s.writeBytes base bytes).idx = s.idx := by rw [State.writeBytes_eq]
@[simp] theorem State.writeBytes_stack (s : State) (base : Nat) (bytes : List Byte) :
    (s.writeBytes base bytes).stack = s.stack := by rw [State.writeBytes_eq]
@[simp] theorem State.writeBytes_dt (s : State) (base : Nat) (bytes : List Byte) :
    (s.writeBytes base bytes).dt = s.dt := by rw [State.writeBytes_eq]
@[simp] theorem State.writeBytes_fb (s : State) (base : Nat) (bytes : List Byte) :
    (s.writeBytes base bytes).fb = s.fb := by rw [State.writeBytes_eq]
@[simp] theorem State.writeBytes_status (s : State) (base : Nat) (bytes : List Byte) :
    (s.writeBytes base bytes).status = s.status := by rw [State.writeBytes_eq]
@[simp] theorem State.writeBytes_cfg (s : State) (base : Nat) (bytes : List Byte) :
    (s.writeBytes base bytes).cfg = s.cfg := by rw [State.writeBytes_eq]
@[simp] theorem State.writeBytes_draws (s : State) (base : Nat) (bytes : List Byte) :
    (s.writeBytes base bytes).draws = s.draws := by rw [State.writeBytes_eq]
@[simp] theorem State.writeBytes_frames (s : State) (base : Nat) (bytes : List Byte) :
    (s.writeBytes base bytes).frames = s.frames := by rw [State.writeBytes_eq]
@[simp] theorem State.writeBytes_loadOpen (s : State) (base : Nat) (bytes : List Byte) :
    (s.writeBytes base bytes).loadOpen = s.loadOpen := by rw [State.writeBytes_eq]
@[simp] theorem State.writeBytes_getReg (s : State) (base : Nat) (bytes : List Byte) (q : RegIx) :
    (s.writeBytes base bytes).getReg q = s.getReg q := by rw [State.writeBytes_eq]; rfl

/-- A read after storing bytes in a row: the stored byte inside the range, the old byte outside it. -/
theorem State.readByte_writeBytes (bytes : List Byte) (s : State) (base a : Nat) :
    (s.writeBytes base bytes).readByte a =
      if h : base ≤ a ∧ a < base + bytes.length then bytes[a - base] else s.readByte a := by
  induction bytes generalizing s base with
  | nil => rw [dif_neg (by simp only [List.length_nil]; omega)]; rfl
  | cons b rest ih =>
    simp only [State.writeBytes, ih, State.readByte_writeByte, List.length_cons]
    by_cases h1 : a = base
    · subst h1
      have h2 : ¬ (a + 1 ≤ a ∧ a < a + 1 + rest.length) := by omega
      rw [dif_neg h2]
      simp
    · by_cases h2 : base + 1 ≤ a ∧ a < base + 1 + rest.length
      · obtain ⟨k, rfl⟩ : ∃ k, a = base + 1 + k := ⟨a - (base + 1), by omega⟩
        have h3 : base ≤ base + 1 + k ∧ base + 1 + k < base + (rest.length + 1) := by omega
        have e1 : base + 1 + k - base = k + 1 := by omega
        have e2 : base + 1 + k - (base + 1) = k := by omega
        rw [dif_pos h2, dif_pos h3]
        simp [e1, e2]
      · have h3 : ¬ (base ≤ a ∧ a < base + (rest.length + 1)) := by omega
        rw [dif_neg h2, if_neg h1, dif_neg h3]

/-- Storing bytes below 0x1000 keeps the canonical form. -/
theorem State.writeBytes_mem_wf (bytes : List Byte) (s : State) (base : Nat) (h : base + bytes.length ≤ 0x1000)
    (hm : Memory.wf s.cfg.font s.mem = true) : Memory.wf s.cfg.font (s.writeBytes base bytes).mem = true := by
  induction bytes generalizing s base with
  | nil => exact hm
  | cons b rest ih =>
    simp only [List.length_cons] at h
    exact ih (s.writeByte base b) (base + 1) (by omega) (Memory.wf_write s.cfg.font (by omega) b hm)

@[simp] theorem State.readBytes_length (s : State) (base count : Nat) : (s.readBytes base count).length = count := by
  simp [State.readBytes]

@[simp] theorem State.getElem_readBytes (s : State) (base count k : Nat) (h : k < (s.readBytes base count).length) :
    (s.readBytes base count)[k] = s.readByte (base + k) := by
  simp [State.readBytes]

/-! ### Registers in a row -/

theorem State.getReg_setReg (s : State) (r q : RegIx) (b : Byte) :
    (s.setReg r b).getReg q = if q = r then b else s.getReg q := by
  unfold State.getReg State.setReg
  by_cases h : q = r
  · subst h; simp
  · have : r.toNat ≠ q.toNat := fun e => h (BitVec.eq_of_toNat_eq e.symm)
    simp [h, this]

@[simp] theorem State.setReg_getReg_self (s : State) (r : RegIx) (b : Byte) : (s.setReg r b).getReg r = b := by
  simp [State.getReg_setReg]

@[simp] theorem State.lowRegs_length (s : State) (count : Nat) : (s.lowRegs count).length = count := by
  simp [State.lowRegs]

@[simp] theorem State.getElem_lowRegs (s : State) (count k : Nat) (h : k < (s.lowRegs count).length) :
    (s.lowRegs count)[k] = s.getReg (BitVec.ofNat 4 k) := by
  simp [State.lowRegs]

/-- What loading registers in a row does: the registers alone change. -/
theorem State.loadRegs_eq (count : Nat) (s : State) (base : Nat) :
    s.loadRegs base count = { s with v := (s.loadRegs base count).v } := by
  induction count with
  | zero => rfl
  | succ k ih =>
    unfold State.loadRegs
    rw [ih]
    rfl

@[simp] theorem State.loadRegs_pc (s : State) (base count : Nat) :
    (s.loadRegs base count).pc = s.pc := by rw [State.loadRegs_eq]
@[simp] theorem State.loadRegs_idx (s : State) (base count : Nat) :
    (s.loadRegs base count).idx = s.idx := by rw [State.loadRegs_eq]
@[simp] theorem State.loadRegs_stack (s : State) (base count : Nat) :
    (s.loadRegs base count).stack = s.stack := by rw [State.loadRegs_eq]
@[simp] theorem State.loadRegs_dt (s : State) (base count : Nat) :
    (s.loadRegs base count).dt = s.dt := by rw [State.loadRegs_eq]
@[simp] theorem State.loadRegs_fb (s : State) (base count : Nat) :
    (s.loadRegs base count).fb = s.fb := by rw [State.loadRegs_eq]
@[simp] theorem State.loadRegs_mem (s : State) (base count : Nat) :
    (s.loadRegs base count).mem = s.mem := by rw [State.loadRegs_eq]
@[simp] theorem State.loadRegs_status (s : State) (base count : Nat) :
    (s.loadRegs base count).status = s.status := by rw [State.loadRegs_eq]
@[simp] theorem State.loadRegs_cfg (s : State) (base count : Nat) :
    (s.loadRegs base count).cfg = s.cfg := by rw [State.loadRegs_eq]
@[simp] theorem State.loadRegs_draws (s : State) (base count : Nat) :
    (s.loadRegs base count).draws = s.draws := by rw [State.loadRegs_eq]
@[simp] theorem State.loadRegs_frames (s : State) (base count : Nat) :
    (s.loadRegs base count).frames = s.frames := by rw [State.loadRegs_eq]
@[simp] theorem State.loadRegs_loadOpen (s : State) (base count : Nat) :
    (s.loadRegs base count).loadOpen = s.loadOpen := by rw [State.loadRegs_eq]
@[simp] theorem State.loadRegs_readByte (s : State) (base count a : Nat) :
    (s.loadRegs base count).readByte a = s.readByte a := by rw [State.loadRegs_eq]; rfl
@[simp] theorem State.loadRegs_fetch (s : State) (base count : Nat) (a : Word) :
    (s.loadRegs base count).fetch a = s.fetch a := by rw [State.loadRegs_eq]; rfl

/-- Loading at most 16 registers: each holds the byte beside it, the others are as before. -/
theorem State.getReg_loadRegs (count : Nat) (hc : count ≤ 16) (s : State) (base : Nat) (q : RegIx) :
    (s.loadRegs base count).getReg q = if q.toNat < count then s.readByte (base + q.toNat) else s.getReg q := by
  induction count with
  | zero => simp [State.loadRegs]
  | succ k ih =>
    rw [State.loadRegs, State.getReg_setReg, ih (by omega)]
    have hk : (BitVec.ofNat 4 k).toNat = k := by simp; omega
    by_cases h : q = BitVec.ofNat 4 k
    · subst h; simp only [hk, if_true]; split <;> first | rfl | omega
    · have : q.toNat ≠ k := fun e => h (BitVec.eq_of_toNat_eq (by omega))
      simp only [h, if_false]
      split <;> split <;> first | rfl | omega

theorem regCount_le (cfg : Config) (x : RegIx) : regCount cfg x ≤ 16 := by
  unfold regCount; split <;> omega

/-! ### The range check -/

/-- No address is out of range exactly when there is none or the last one is at most 0xFFF. -/
theorem firstOutOfRange_eq_none {base : Word} {count : Nat} :
    firstOutOfRange base count = none ↔ count = 0 ∨ base.toNat + count - 1 ≤ 0xFFF := by
  unfold firstOutOfRange; split <;> simp <;> omega

theorem firstOutOfRange_eq_some {base : Word} {count bad : Nat} :
    firstOutOfRange base count = some bad ↔ 0 < count ∧ 0xFFF < base.toNat + count - 1 ∧ bad = max base.toNat 0x1000 := by
  unfold firstOutOfRange; split <;> simp_all <;> omega

end Sys2Proof.Machine
end

