-- ==== Sys2Proof/Laws/Exec.lean ====
section
/-!
SUPPORT. Laws/Exec.lean: everything a step can do, said once: the shape of a step, of a cycle, and of each meaning's
answer; and the frames of the operations a meaning ends with.
-/
namespace Sys2Proof

open Sys2Proof.Machine

/-! ### The shape of a step (rules R29, R64) -/

theorem step_running {s : State} (h : s.status = .running) : step s = cycle s.hostTurn := by
  simp [step, requestStep, h]

theorem step_halted {s : State} (h : s.status = .halted) : step s = .fault .stepWhileHalted := by
  simp [step, requestStep, h]

theorem step_faulted {s : State} {cause : Cause} {word : Option Word} {addr : Word}
    (h : s.status = .faulted cause word addr) : step s = .fault (.stepWhileFaulted cause) := by
  simp [step, requestStep, h]

/-- A step that answers a next state began in a running core. -/
theorem running_of_step_next {s t : State} (h : step s = .next t) : s.status = .running := by
  unfold step requestStep at h
  split at h <;> first | assumption | exact nomatch h

theorem cycle_of_fetch_none {s : State} (h : s.fetch s.pc = none) : cycle s = .next (s.raise .fetchBounds none) := by
  simp [cycle, h]

theorem cycle_of_decode_none {s : State} {w : Word} (h : s.fetch s.pc = some w) (hd : decodeWord w = none) :
    cycle s = .next (s.raise .decodeFault (some w)) := by
  simp [cycle, h, hd]

theorem cycle_of_decode_some {s : State} {w : Word} {i : Instr} (h : s.fetch s.pc = some w) (hd : decodeWord w = some i) :
    cycle s = exec i s := by
  simp [cycle, h, hd]

/-- Everything a cycle can do: it raises `FetchBounds`, it raises `DecodeFault`, or it executes the decoded instruction. -/
theorem cycle_cases (s : State) :
    (s.fetch s.pc = none ∧ cycle s = .next (s.raise .fetchBounds none)) ∨
    (∃ w, s.fetch s.pc = some w ∧ decodeWord w = none ∧ cycle s = .next (s.raise .decodeFault (some w))) ∨
    (∃ w i, s.fetch s.pc = some w ∧ decodeWord w = some i ∧ cycle s = exec i s) := by
  cases hf : s.fetch s.pc with
  | none => exact .inl ⟨rfl, cycle_of_fetch_none hf⟩
  | some w =>
    cases hd : decodeWord w with
    | none => exact .inr (.inl ⟨w, rfl, hd, cycle_of_decode_none hf hd⟩)
    | some i => exact .inr (.inr ⟨w, i, rfl, hd, cycle_of_decode_some hf hd⟩)

/-! ### Fetch (rule R48) -/

theorem fetch_eq_none {s : State} {a : Word} : s.fetch a = none ↔ 0xFFE < a.toNat := by
  unfold State.fetch; split <;> simp <;> omega

theorem fetch_eq_some {s : State} {a w : Word} :
    s.fetch a = some w ↔ a.toNat ≤ 0xFFE ∧ wordOfBytes (s.readByte a.toNat) (s.readByte (a.toNat + 1)) = w := by
  unfold State.fetch
  split
  · simp_all
  · simp only [reduceCtorEq, false_iff, not_and]; intro h; omega

/-! ### Operands as numbers (rules R63, R84, R122, R175) -/

theorem immAddr_toNat (nnn : Imm12) : (immAddr nnn).toNat = nnn.toNat := by
  unfold immAddr; simp; omega

theorem offsetTarget_toNat (nnn : Imm12) (v0 : Byte) : (offsetTarget nnn v0).toNat = nnn.toNat + v0.toNat := by
  have := v0.isLt; have := nnn.isLt
  simp [offsetTarget, BitVec.toNat_add, immAddr_toNat]; omega

theorem glyphAddr_toNat (vx : Byte) : (glyphAddr vx).toNat = 0x050 + vx.toNat * 5 := by
  simp [glyphAddr, BitVec.toNat_add, BitVec.toNat_mul]; omega

theorem tickDown_toNat (dt : Byte) : (tickDown dt).toNat = dt.toNat - 1 := by
  unfold tickDown
  split
  · simp_all
  · rename_i h
    have : dt.toNat ≠ 0 := fun e => h (BitVec.eq_of_toNat_eq e)
    rw [BitVec.toNat_sub]; simp; omega

/-- The advance of a pc that could be fetched from does not wrap (rule R22). -/
theorem toNat_add_two {p : Word} (h : p.toNat ≤ 0xFFE) : (p + 2).toNat = p.toNat + 2 := by
  rw [BitVec.toNat_add]; simp; omega

/-! ### What an instruction can answer (rules R160, R161, R170) -/

/-- Every instruction answers a next state, in every state. -/
theorem exec_total (i : Instr) (s : State) : ∃ t, exec i s = .next t := by cases i <;> exact ⟨_, rfl⟩

/-- The three ends of an instruction of a running core: it completes, it halts on a self-jump, or it raises its own fault. -/
theorem exec_next_cases {i : Instr} {s t : State} (hs : s.status = .running) (h : exec i s = .next t) :
    t.status = .running ∨
    (∃ nnn : Imm12, i = .jpNnn nnn ∧ nnn.toNat = s.pc.toNat ∧ t = s.halt) ∨
    (∃ cause, t = s.raise cause (some (encode i)) ∧ cause ≠ .fetchBounds ∧ cause ≠ .decodeFault ∧
      (s.idx.toNat ≤ 0xFFF → ∀ bad, cause = .memBounds bad → bad = 0x1000)) := by
  cases i <;>
    simp only [exec, execCls, execRet, execJpNnn, execCallNnn, execSeVxNn, execSneVxNn, execSeVxVy, execLdVxNn, execAddVxNn,
      execLdVxVy, execOrVxVy, execAndVxVy, execXorVxVy, execAddVxVy, execSubVxVy, execShrVx, execSubnVxVy,
      execShlVx, execSneVxVy, execLdINnn, execJpV0Nnn, execRndVxNn, execDrwVxVyN, execSkpVx, execSknpVx, execLdVxDt,
      execLdVxK, execLdDtVx, execLdStVx, execAddIVx, execLdFVx, execLdBVx, execLdMemIVx, execLdVxMemI, Host.Outcome.next.injEq] at h <;>
    subst h
  case jpNnn n =>
    split
    · rename_i e
      refine .inr (.inl ⟨n, rfl, by rw [← immAddr_toNat, e], ?_⟩)
      simp [State.halt, State.setPc, State.advance, e]
    · left; simp [hs]
  case callNnn n =>
    split
    · exact .inr (.inr ⟨_, rfl, by simp, by simp, by simp⟩)
    · left; simp [hs]
  case ret =>
    split
    · split
      · exact .inr (.inr ⟨_, rfl, by simp, by simp, by simp⟩)
      · left; simp [hs]
    · left; simp [hs]
  case ldBVx | ldMemIVx | ldVxMemI | drwVxVyN =>
    all_goals split
    · rename_i hb
      refine .inr (.inr ⟨_, rfl, by simp, by simp, fun hi bad hbad => ?_⟩)
      cases hbad
      have := firstOutOfRange_eq_some.mp hb
      omega
    · left; simp [hs, State.setFlag]
  all_goals (left; (repeat' split) <;> simp [hs, State.setResultThenFlag, State.setFlag])

/-! ### Frames -/

/-- Raising a fault changes the run status alone, and records the address the step began at (rule R160). -/
theorem raise_faultsWith (cause : Cause) (word : Option Word) (s : State) : FaultsWith cause word s (s.raise cause word) :=
  ⟨rfl, by constructor <;> simp⟩

/-- A register other than the destination and the flag register keeps its value. -/
theorem getReg_setResultThenFlag (s : State) (x q : RegIx) (result : Byte) (flag : Bool) :
    (s.setResultThenFlag x result flag).getReg q =
      if q = flagReg then flagByte flag else if q = x then result else s.getReg q := by
  simp only [State.setResultThenFlag, State.setFlag, State.getReg_setReg]

/-- The result stands in the destination when that is not `VF` (rule R101). -/
theorem getReg_result (s : State) {x : RegIx} (hx : x ≠ 0xF) (result : Byte) (flag : Bool) :
    (s.setResultThenFlag x result flag).getReg x = result := by
  rw [getReg_setResultThenFlag, if_neg (show x ≠ flagReg from hx), if_pos rfl]

/-- The flag is what `VF` holds, whatever the destination (rule R101). -/
theorem getReg_flag (s : State) (x : RegIx) (result : Byte) (flag : Bool) :
    (s.setResultThenFlag x result flag).getReg 0xF = flagByte flag := by
  rw [getReg_setResultThenFlag]; exact if_pos rfl

/-- The two writes of a flag-writing instruction after the advance change the pc and the two registers only. -/
theorem setResultThenFlag_changesOnly (s : State) (x : RegIx) (result : Byte) (flag : Bool) :
    ChangesOnly [.pc] [x, 0xF] s (s.advance.setResultThenFlag x result flag) := by
  constructor <;> try simp [State.setResultThenFlag, State.setFlag]
  · intro r h1 h2
    simp [State.getReg_setReg, flagReg, h1, h2]

/-- One register write after the advance changes the pc and that register only. -/
theorem setReg_changesOnly (s : State) (x : RegIx) (b : Byte) : ChangesOnly [.pc] [x] s (s.advance.setReg x b) := by
  constructor <;> try simp
  · intro r h; simp [State.getReg_setReg, h]

/-- Storing bytes after the advance changes the pc and memory only. -/
theorem writeBytes_changesOnly (s : State) (base : Nat) (bytes : List Byte) :
    ChangesOnly [.pc, .mem] [] s (s.advance.writeBytes base bytes) := by
  constructor <;> simp

end Sys2Proof
end

