-- ==== Sys2Proof/Laws/Framebuffer.lean ====
section
/-!
SUPPORT. Laws/Framebuffer.lean: distinct pixels are distinct bits, and what setting one bit of a byte does to the others
(rules R131 to R133).
-/
namespace Sys2Proof.Machine

theorem pixelBit_lt (x : Fin 64) : pixelBit x < 8 := by unfold pixelBit; omega

/-- Two pixels of one byte and one bit are one pixel (rule R131). -/
theorem pixel_ext {x x' : Fin 64} {y y' : Fin 32} (hb : pixelByte x y = pixelByte x' y') (hk : pixelBit x = pixelBit x') :
    x = x' ∧ y = y' := by
  simp only [pixelByte, pixelBit, Fin.mk.injEq] at hb hk
  constructor <;> apply Fin.ext <;> omega

/-- The mask of a pixel is one at its own bit only. -/
theorem getLsbD_pixelMask (x : Fin 64) {k : Nat} (hk : k < 8) : (pixelMask x).getLsbD k = decide (k = pixelBit x) := by
  unfold pixelMask
  have := pixelBit_lt x
  rw [BitVec.getLsbD_shiftLeft]
  by_cases h : k = pixelBit x
  · subst h; simp [hk]
  · by_cases h2 : k < pixelBit x
    · simp [h, h2]
    · have : k - pixelBit x ≠ 0 := by omega
      simp [h, BitVec.getLsbD_one, this]

/-- What `fbSet` does to every pixel (rule R133): the pixel set has the value, every other pixel is as before. -/
theorem fbGet_fbSet (fb : Framebuffer) (x x' : Fin 64) (y y' : Fin 32) (v : Bool) :
    fbGet (fbSet fb x y v) x' y' = if x' = x ∧ y' = y then v else fbGet fb x' y' := by
  have hk' := pixelBit_lt x'
  unfold fbGet fbSet
  by_cases hb : pixelByte x y = pixelByte x' y'
  · have hbv : (pixelByte x y).val = (pixelByte x' y').val := congrArg Fin.val hb
    simp only [Fin.getElem_fin, hbv, Vector.getElem_set_self]
    by_cases hk : pixelBit x' = pixelBit x
    · obtain ⟨rfl, rfl⟩ := pixel_ext hb hk.symm
      cases v <;> simp [getLsbD_pixelMask _ hk', hk']
    · have hne : ¬ (x' = x ∧ y' = y) := fun e => hk (by rw [e.1])
      have hm := getLsbD_pixelMask x hk'
      rw [BitVec.getLsbD_eq_getElem hk'] at hm
      cases v <;> simp [hk', hk, hm, hne]
  · have hne : ¬ (x' = x ∧ y' = y) := fun e => hb (by rw [e.1, e.2])
    have hbv : (pixelByte x y).val ≠ (pixelByte x' y').val := fun e => hb (Fin.ext e)
    simp [hne, hbv]

end Sys2Proof.Machine
end

