-- ==== Sys2Proof/Laws/PerInstr.lean ====
section
/-!
SUPPORT. Laws/PerInstr.lean: the family `Encoding`, one lemma per constructor of `Instr`: the instruction's word belongs to
the row of spec/opcode_table.json that carries its mnemonic (rules R62, R65).
-/
namespace Sys2Proof.Laws.Encoding

/-- The instruction's word has the fixed bits of its row in the opcode table. -/
def Statement (i : Instr) : Prop := ∃ row ∈ opcodeTable, row.mnemonic = i.mnemonic ∧ row.holds (encode i) = true

/-- A row of the table holds a word whose masked bits are the row's value. -/
theorem statement_of_row {i : Instr} (k : Fin 34) (hm : opcodeTable[k].mnemonic = i.mnemonic)
    (hw : encode i &&& opcodeTable[k].mask = opcodeTable[k].value) : Statement i :=
  ⟨opcodeTable[k], List.getElem_mem _, hm, beq_iff_eq.mpr hw⟩

theorem cls : Statement .cls := statement_of_row 0 rfl (by decide)
theorem ret : Statement .ret := statement_of_row 1 rfl (by decide)
theorem jpNnn (nnn : Imm12) : Statement (.jpNnn nnn) := statement_of_row 2 rfl ((packNNN_and_type _ nnn).trans (by decide))
theorem callNnn (nnn : Imm12) : Statement (.callNnn nnn) := statement_of_row 3 rfl ((packNNN_and_type _ nnn).trans (by decide))
theorem seVxNn (x : RegIx) (nn : Byte) : Statement (.seVxNn x nn) := statement_of_row 4 rfl ((packXNN_and_type _ x nn).trans (by decide))
theorem sneVxNn (x : RegIx) (nn : Byte) : Statement (.sneVxNn x nn) := statement_of_row 5 rfl ((packXNN_and_type _ x nn).trans (by decide))
theorem seVxVy (x : RegIx) (y : RegIx) : Statement (.seVxVy x y) := statement_of_row 6 rfl ((packXYN_and_type_n _ x y _).trans (by decide))
theorem ldVxNn (x : RegIx) (nn : Byte) : Statement (.ldVxNn x nn) := statement_of_row 7 rfl ((packXNN_and_type _ x nn).trans (by decide))
theorem addVxNn (x : RegIx) (nn : Byte) : Statement (.addVxNn x nn) := statement_of_row 8 rfl ((packXNN_and_type _ x nn).trans (by decide))
theorem ldVxVy (x : RegIx) (y : RegIx) : Statement (.ldVxVy x y) := statement_of_row 9 rfl ((packXYN_and_type_n _ x y _).trans (by decide))
theorem orVxVy (x : RegIx) (y : RegIx) : Statement (.orVxVy x y) := statement_of_row 10 rfl ((packXYN_and_type_n _ x y _).trans (by decide))
theorem andVxVy (x : RegIx) (y : RegIx) : Statement (.andVxVy x y) := statement_of_row 11 rfl ((packXYN_and_type_n _ x y _).trans (by decide))
theorem xorVxVy (x : RegIx) (y : RegIx) : Statement (.xorVxVy x y) := statement_of_row 12 rfl ((packXYN_and_type_n _ x y _).trans (by decide))
theorem addVxVy (x : RegIx) (y : RegIx) : Statement (.addVxVy x y) := statement_of_row 13 rfl ((packXYN_and_type_n _ x y _).trans (by decide))
theorem subVxVy (x : RegIx) (y : RegIx) : Statement (.subVxVy x y) := statement_of_row 14 rfl ((packXYN_and_type_n _ x y _).trans (by decide))
theorem shrVx (x : RegIx) (y : RegIx) : Statement (.shrVx x y) := statement_of_row 15 rfl ((packXYN_and_type_n _ x y _).trans (by decide))
theorem subnVxVy (x : RegIx) (y : RegIx) : Statement (.subnVxVy x y) := statement_of_row 16 rfl ((packXYN_and_type_n _ x y _).trans (by decide))
theorem shlVx (x : RegIx) (y : RegIx) : Statement (.shlVx x y) := statement_of_row 17 rfl ((packXYN_and_type_n _ x y _).trans (by decide))
theorem sneVxVy (x : RegIx) (y : RegIx) : Statement (.sneVxVy x y) := statement_of_row 18 rfl ((packXYN_and_type_n _ x y _).trans (by decide))
theorem ldINnn (nnn : Imm12) : Statement (.ldINnn nnn) := statement_of_row 19 rfl ((packNNN_and_type _ nnn).trans (by decide))
theorem jpV0Nnn (nnn : Imm12) : Statement (.jpV0Nnn nnn) := statement_of_row 20 rfl ((packNNN_and_type _ nnn).trans (by decide))
theorem rndVxNn (x : RegIx) (nn : Byte) : Statement (.rndVxNn x nn) := statement_of_row 21 rfl ((packXNN_and_type _ x nn).trans (by decide))
theorem drwVxVyN (x : RegIx) (y : RegIx) (n : Nibble) : Statement (.drwVxVyN x y n) := statement_of_row 22 rfl ((packXYN_and_type _ x y n).trans (by decide))
theorem skpVx (x : RegIx) : Statement (.skpVx x) := statement_of_row 23 rfl ((packXNN_and_type_nn _ x _).trans (by decide))
theorem sknpVx (x : RegIx) : Statement (.sknpVx x) := statement_of_row 24 rfl ((packXNN_and_type_nn _ x _).trans (by decide))
theorem ldVxDt (x : RegIx) : Statement (.ldVxDt x) := statement_of_row 25 rfl ((packXNN_and_type_nn _ x _).trans (by decide))
theorem ldVxK (x : RegIx) : Statement (.ldVxK x) := statement_of_row 26 rfl ((packXNN_and_type_nn _ x _).trans (by decide))
theorem ldDtVx (x : RegIx) : Statement (.ldDtVx x) := statement_of_row 27 rfl ((packXNN_and_type_nn _ x _).trans (by decide))
theorem ldStVx (x : RegIx) : Statement (.ldStVx x) := statement_of_row 28 rfl ((packXNN_and_type_nn _ x _).trans (by decide))
theorem addIVx (x : RegIx) : Statement (.addIVx x) := statement_of_row 29 rfl ((packXNN_and_type_nn _ x _).trans (by decide))
theorem ldFVx (x : RegIx) : Statement (.ldFVx x) := statement_of_row 30 rfl ((packXNN_and_type_nn _ x _).trans (by decide))
theorem ldBVx (x : RegIx) : Statement (.ldBVx x) := statement_of_row 31 rfl ((packXNN_and_type_nn _ x _).trans (by decide))
theorem ldMemIVx (x : RegIx) : Statement (.ldMemIVx x) := statement_of_row 32 rfl ((packXNN_and_type_nn _ x _).trans (by decide))
theorem ldVxMemI (x : RegIx) : Statement (.ldVxMemI x) := statement_of_row 33 rfl ((packXNN_and_type_nn _ x _).trans (by decide))

end Sys2Proof.Laws.Encoding
end

