-- ==== Sys2Proof/Laws/Sprite.lean ====
section
/-!
SUPPORT. Laws/Sprite.lean: what compositing a bit, a row and a sprite does to every pixel, and when it collides
(rules R134, R135, R137, R138).
-/
namespace Sys2Proof.Machine

/-- What one sprite bit does to every pixel (rules R134, R135). -/
theorem fbGet_drawBit (acc : Framebuffer × Bool) (px py : Nat) (b : Bool) (x : Fin 64) (y : Fin 32) :
    fbGet (drawBit acc px py b).1 x y =
      if x.val = px ∧ y.val = py then fbGet acc.1 x y ^^ b else fbGet acc.1 x y := by
  by_cases h : px < 64 ∧ py < 32
  · simp only [drawBit, fbXor, h, and_self, if_true, dite_true, fbGet_fbSet]
    by_cases e : x.val = px ∧ y.val = py
    · obtain ⟨rfl, rfl⟩ := e; simp
    · have e' : ¬ (x = ⟨px, h.1⟩ ∧ y = ⟨py, h.2⟩) := by
        rintro ⟨rfl, rfl⟩; exact e ⟨rfl, rfl⟩
      simp [e, e']
  · have e : ¬ (x.val = px ∧ y.val = py) := by omega
    simp [drawBit, h, e]

/-- When one sprite bit leaves the collision flag set (rule R137). -/
theorem drawBit_collides (acc : Framebuffer × Bool) (px py : Nat) (b : Bool) :
    (drawBit acc px py b).2 = true ↔
      acc.2 = true ∨ ∃ (x : Fin 64) (y : Fin 32), x.val = px ∧ y.val = py ∧ b = true ∧ fbGet acc.1 x y = true := by
  by_cases h : px < 64 ∧ py < 32
  · simp only [drawBit, fbXor, h, and_self, if_true, dite_true, Bool.or_eq_true, Bool.and_eq_true]
    apply or_congr Iff.rfl
    constructor
    · rintro ⟨rfl, h2⟩
      exact ⟨⟨px, h.1⟩, ⟨py, h.2⟩, rfl, rfl, rfl, by simpa using h2⟩
    · rintro ⟨x, y, rfl, rfl, rfl, h2⟩
      simp [h2]
  · simp only [drawBit, h, if_false]
    constructor
    · exact Or.inl
    · rintro (h1 | ⟨x, y, hx, hy, _⟩)
      · exact h1
      · omega

/-- What the first `count` columns of a row do to every pixel. -/
theorem fbGet_drawColumns (acc : Framebuffer × Bool) (x0 py : Nat) (row : Byte) (count : Nat) (x : Fin 64) (y : Fin 32) :
    fbGet (drawColumns acc x0 py row count).1 x y =
      if x0 ≤ x.val ∧ x.val < x0 + count ∧ y.val = py then fbGet acc.1 x y ^^ row.getLsbD (7 - (x.val - x0))
      else fbGet acc.1 x y := by
  induction count with
  | zero =>
    rw [drawColumns, if_neg (by omega)]
  | succ c ih =>
    rw [drawColumns, fbGet_drawBit, ih]
    by_cases h : x.val = x0 + c ∧ y.val = py
    · have h3 : x.val - x0 = c := by omega
      rw [if_pos h, if_neg (by omega), if_pos (by omega), h3]
    · rw [if_neg h]
      congr 1
      apply propext; omega

/-- When the first `count` columns of a row leave the collision flag set. -/
theorem drawColumns_collides (acc : Framebuffer × Bool) (x0 py : Nat) (row : Byte) (count : Nat) :
    (drawColumns acc x0 py row count).2 = true ↔
      acc.2 = true ∨ ∃ (x : Fin 64) (y : Fin 32), x0 ≤ x.val ∧ x.val < x0 + count ∧ y.val = py ∧
        row.getLsbD (7 - (x.val - x0)) = true ∧ fbGet acc.1 x y = true := by
  induction count with
  | zero =>
    simp only [drawColumns, Nat.add_zero]
    constructor
    · exact Or.inl
    · rintro (h | ⟨x, y, h1, h2, _⟩)
      · exact h
      · omega
  | succ c ih =>
    rw [drawColumns, drawBit_collides, ih]
    constructor
    · rintro ((h | ⟨x, y, h1, h2, h3, h4, h5⟩) | ⟨x, y, h1, h2, h3, h4⟩)
      · exact .inl h
      · exact .inr ⟨x, y, h1, by omega, h3, h4, h5⟩
      · rw [fbGet_drawColumns, if_neg (by omega)] at h4
        have e : x.val - x0 = c := by omega
        exact .inr ⟨x, y, by omega, by omega, h2, by rw [e]; exact h3, h4⟩
    · rintro (h | ⟨x, y, h1, h2, h3, h4, h5⟩)
      · exact .inl (.inl h)
      · by_cases e : x.val = x0 + c
        · have e' : x.val - x0 = c := by omega
          refine .inr ⟨x, y, e, h3, by rw [← e']; exact h4, ?_⟩
          rw [fbGet_drawColumns, if_neg (by omega)]; exact h5
        · exact .inl (.inr ⟨x, y, h1, by omega, h3, h4, h5⟩)

/-- The bit of a sprite, its rows given as a list, that falls on a pixel when it is drawn from column `x0`, row `y0`. -/
def rowsBit (rows : List Byte) (x0 y0 px py : Nat) : Bool :=
  if x0 ≤ px ∧ px < x0 + 8 ∧ y0 ≤ py then (rows.getD (py - y0) 0).getLsbD (7 - (px - x0)) else false

theorem rowsBit_cons (row : Byte) (rest : List Byte) (x0 y0 px py : Nat) :
    rowsBit (row :: rest) x0 y0 px py =
      if x0 ≤ px ∧ px < x0 + 8 ∧ py = y0 then row.getLsbD (7 - (px - x0)) else rowsBit rest x0 (y0 + 1) px py := by
  unfold rowsBit
  by_cases e : py = y0
  · subst e
    have : ¬ (py + 1 ≤ py) := by omega
    simp [this]
  · by_cases h : x0 ≤ px ∧ px < x0 + 8 ∧ y0 ≤ py
    · obtain ⟨k, rfl⟩ : ∃ k, py = y0 + 1 + k := ⟨py - (y0 + 1), by omega⟩
      have e1 : y0 + 1 + k - y0 = k + 1 := by omega
      have e2 : y0 + 1 + k - (y0 + 1) = k := by omega
      have e3 : y0 ≤ y0 + 1 + k := by omega
      have e4 : y0 + 1 + k ≠ y0 := by omega
      simp [h.1, h.2.1, e1, e2, e3, e4]
    · have h1 : ¬ (x0 ≤ px ∧ px < x0 + 8 ∧ y0 + 1 ≤ py) := by omega
      have h2 : ¬ (x0 ≤ px ∧ px < x0 + 8 ∧ py = y0) := by omega
      simp only [h, h1, h2, if_false]

/-- What a sprite does to every pixel: the pixel is XORed with the sprite bit that falls on it (rule R138). -/
theorem fbGet_drawRows (rows : List Byte) (acc : Framebuffer × Bool) (x0 y0 : Nat) (x : Fin 64) (y : Fin 32) :
    fbGet (drawRows acc x0 y0 rows).1 x y = (fbGet acc.1 x y ^^ rowsBit rows x0 y0 x y) := by
  induction rows generalizing acc y0 with
  | nil => simp [drawRows, rowsBit]
  | cons row rest ih =>
    rw [drawRows, ih, fbGet_drawColumns, rowsBit_cons]
    by_cases h : x0 ≤ x.val ∧ x.val < x0 + 8 ∧ y.val = y0
    · have hz : rowsBit rest x0 (y0 + 1) x.val y.val = false := by
        unfold rowsBit; exact if_neg (by omega)
      rw [if_pos h, if_pos h, hz]; simp
    · rw [if_neg h, if_neg h]

/-- When a sprite leaves the collision flag set: a sprite bit of 1 falls on a pixel that was on (rules R137, R138). -/
theorem drawRows_collides (rows : List Byte) (acc : Framebuffer × Bool) (x0 y0 : Nat) :
    (drawRows acc x0 y0 rows).2 = true ↔
      acc.2 = true ∨ ∃ (x : Fin 64) (y : Fin 32), rowsBit rows x0 y0 x y = true ∧ fbGet acc.1 x y = true := by
  induction rows generalizing acc y0 with
  | nil => simp [drawRows, rowsBit]
  | cons row rest ih =>
    rw [drawRows, ih, drawColumns_collides, or_assoc]
    apply or_congr Iff.rfl
    constructor
    · rintro (⟨x, y, h1, h2, h3, h4, h5⟩ | ⟨x, y, h1, h2⟩)
      · exact ⟨x, y, by rw [rowsBit_cons, if_pos ⟨h1, h2, h3⟩]; exact h4, h5⟩
      · have hy : ¬ y.val = y0 := by
          intro e
          unfold rowsBit at h1
          rw [if_neg (by omega)] at h1
          exact nomatch h1
        rw [fbGet_drawColumns, if_neg (by omega)] at h2
        exact ⟨x, y, by rw [rowsBit_cons, if_neg (by omega)]; exact h1, h2⟩
    · rintro ⟨x, y, h1, h2⟩
      rw [rowsBit_cons] at h1
      by_cases h : x0 ≤ x.val ∧ x.val < x0 + 8 ∧ y.val = y0
      · rw [if_pos h] at h1
        exact .inl ⟨x, y, h.1, h.2.1, h.2.2, h1, h2⟩
      · rw [if_neg h] at h1
        refine .inr ⟨x, y, h1, ?_⟩
        rw [fbGet_drawColumns, if_neg h]
        exact h2

end Sys2Proof.Machine
end

