-- ==== Sys2Proof/Tests/Slice0.lean ====
section
/-!
SUPPORT. Tests/Slice0.lean: small tests with expected results from spec/95_test_vectors.md (its section numbers stand in the
headings), the refusals of WellFormed, and, for each statement with hypotheses, a witness that meets them.
-/
namespace Sys2Proof.Tests

open Sys2Proof.Machine

/-- The state after an instruction, for reading one or two of its fields. -/
def after (i : Instr) (s : State) : State :=
  match exec i s with
  | .next t => t
  | .fault _ => s
  | .refused _ => s

/-- The reset state with some registers set. -/
def withRegs (values : List (RegIx × Byte)) : State :=
  values.foldl (fun s p => s.setReg p.1 p.2) State.reset

/-- The reset state with other parameters. -/
def configured (cfg : Config) : State := State.resetWith cfg

/-! ### Illegal words and images that are refused (rules R66, R192; section 2.1, S11) -/

theorem test_wellFormed_type0_refuses : [0x0000, 0x00E1, 0x00FE, 0x0123, 0x01E0].all (fun w => !legalWord w) = true := by decide
theorem test_wellFormed_type5_refuses : [0x5121, 0x512F].all (fun w => !legalWord w) = true := by decide
theorem test_wellFormed_type8_refuses :
    [0x8128, 0x8129, 0x812A, 0x812B, 0x812C, 0x812D, 0x812F].all (fun w => !legalWord w) = true := by decide
theorem test_wellFormed_type9_refuses : [0x9AB1].all (fun w => !legalWord w) = true := by decide
theorem test_wellFormed_typeE_refuses : [0xE19F, 0xE1A0, 0xE000].all (fun w => !legalWord w) = true := by decide
theorem test_wellFormed_typeF_refuses :
    [0xF100, 0xF1FF, 0xF106, 0xF175, 0xF185, 0xF000].all (fun w => !legalWord w) = true := by decide
theorem test_wellFormed_admits :
    [0x00E0, 0x00EE, 0x1FFF, 0x5120, 0x812E, 0x9120, 0xE19E, 0xF165].all (fun w => legalWord w) = true := by decide
theorem test_wellFormed_image_3585_refused : wellFormedImage (List.replicate 3585 0x00) = false := by
  rw [wellFormedImage, List.length_replicate]; rfl
theorem test_wellFormed_image_3584_admitted : wellFormedImage (List.replicate 3584 0x00) = true := by
  rw [wellFormedImage, List.length_replicate]; rfl

/-! ### Decoding words written out from rules R61, R62, R65, nibble by nibble -/

theorem test_decode_control :
    decodeWord 0b0000000011101110 = some .ret ∧ decodeWord 0b0001001000001100 = some (.jpNnn 0x20C) ∧
    decodeWord 0b0010001000000110 = some (.callNnn 0x206) ∧ decodeWord 0b1011111111111111 = some (.jpV0Nnn 0xFFF) := by decide
theorem test_decode_skip :
    decodeWord 0b0011001100101010 = some (.seVxNn 0x3 0x2A) ∧ decodeWord 0b0100001100101010 = some (.sneVxNn 0x3 0x2A) ∧
    decodeWord 0b0101000100100000 = some (.seVxVy 0x1 0x2) ∧ decodeWord 0b1001000100100000 = some (.sneVxVy 0x1 0x2) := by decide
theorem test_decode_load_add :
    decodeWord 0b0110101000111100 = some (.ldVxNn 0xA 0x3C) ∧ decodeWord 0b0111000000000101 = some (.addVxNn 0x0 0x05) ∧
    decodeWord 0b1100000100001111 = some (.rndVxNn 0x1 0x0F) := by decide
theorem test_decode_logic :
    decodeWord 0b1000000100100000 = some (.ldVxVy 0x1 0x2) ∧ decodeWord 0b1000000100100001 = some (.orVxVy 0x1 0x2) ∧
    decodeWord 0b1000000100100010 = some (.andVxVy 0x1 0x2) ∧ decodeWord 0b1000000100100011 = some (.xorVxVy 0x1 0x2) := by decide
theorem test_decode_arithmetic :
    decodeWord 0b1000101010110100 = some (.addVxVy 0xA 0xB) ∧ decodeWord 0b1000000000010101 = some (.subVxVy 0x0 0x1) ∧
    decodeWord 0b1000001111000110 = some (.shrVx 0x3 0xC) ∧ decodeWord 0b1000000000010111 = some (.subnVxVy 0x0 0x1) ∧
    decodeWord 0b1000000011011110 = some (.shlVx 0x0 0xD) := by decide
theorem test_decode_index :
    decodeWord 0b1010001100000000 = some (.ldINnn 0x300) ∧ decodeWord 0b1111000000011110 = some (.addIVx 0x0) ∧
    decodeWord 0b1111001000101001 = some (.ldFVx 0x2) ∧ decodeWord 0b1111000000110011 = some (.ldBVx 0x0) ∧
    decodeWord 0b1111001101010101 = some (.ldMemIVx 0x3) ∧ decodeWord 0b1111100101100101 = some (.ldVxMemI 0x9) := by decide
theorem test_decode_draw :
    decodeWord 0b0000000011100000 = some .cls ∧ decodeWord 0b1101000100100011 = some (.drwVxVyN 0x1 0x2 0x3) := by decide
theorem test_decode_key :
    decodeWord 0b1110000110011110 = some (.skpVx 0x1) ∧ decodeWord 0b1110000010100001 = some (.sknpVx 0x0) ∧
    decodeWord 0b1111001100001010 = some (.ldVxK 0x3) := by decide
theorem test_decode_timer :
    decodeWord 0b1111001000000111 = some (.ldVxDt 0x2) ∧ decodeWord 0b1111001000010101 = some (.ldDtVx 0x2) ∧
    decodeWord 0b1111001000011000 = some (.ldStVx 0x2) := by decide

/-- Rule R44: the high byte comes first. -/
theorem test_decode_bytes : decode [0x12, 0x0C, 0xAB] = .instr (.jpNnn 0x20C) [0xAB] := by decide
theorem test_decode_illegal_bytes : decode [0x00, 0x00] = .illegal 0x0000 := by decide
theorem test_decode_short : decode [0x12] = .tooShort := by decide
theorem test_encode_bytes : encodeBytes (.jpNnn 0x234) = [0x12, 0x34] := by decide
theorem test_decodeTableWord : decodeTableWord 16 0xD123 = some (.drwVxVyN 0x1 0x2 0x3) := by decide

/-- Rule R65: no word belongs to two rows. -/
theorem test_table_rows_disjoint :
    opcodeTable.Pairwise (fun r q => r.value &&& (r.mask &&& q.mask) ≠ q.value &&& (r.mask &&& q.mask)) := by decide +kernel
/-- Rule R66: 43954 legal words; a row holds `2 ^ k` words, `k` the number of bits its mask leaves free. -/
theorem test_table_counts_legal_words :
    (opcodeTable.map fun r => 2 ^ ((List.range 16).filter fun k => !r.mask.getLsbD k).length).sum = 43954 := by decide +kernel

/-! ### Control transfer (section 2.2) -/

theorem test_jp : (after (.jpNnn 0x204) (State.reset.setPc 0x20A)).pc = 0x204 := by decide
theorem test_jp_self_halts : (after (.jpNnn 0xFFE) (State.reset.setPc 0xFFE)).status = .halted := by decide
theorem test_call : (after (.callNnn 0x300) ((State.reset.push 0x0202).setPc 0x206)).stack = [0x0208, 0x0202] := by decide
theorem test_call_overflows :
    (after (.callNnn 0x400) ((((configured { stackDepth := some 2 }).push 0x0202).push 0x0208).setPc 0x300)).status
      = .faulted .stackOverflow (some 0x2400) 0x300 := by decide
theorem test_ret_pops : (after .ret (((configured { retPops := true }).push 0x0202).setPc 0x208)).pc = 0x202 := by decide
theorem test_ret_does_not_pop :
    (after .ret ((State.reset.push 0x0202).setPc 0x208)).pc = 0x20A ∧
    (after .ret ((State.reset.push 0x0202).setPc 0x208)).stack = [0x0202] := by decide
theorem test_jp_v0 : (after (.jpV0Nnn 0x300) (withRegs [(0x0, 0x10), (0x3, 0x99)])).pc = 0x310 := by decide
theorem test_jp_v0_is_not_masked : (after (.jpV0Nnn 0xFFF) (withRegs [(0x0, 0xFF)])).pc = 0x10FE := by decide

/-! ### Skips (section 2.3) -/

theorem test_se_nn : (after (.seVxNn 0x3 0x2A) (withRegs [(0x3, 0x2A)])).pc = 0x204 := by decide
theorem test_se_nn_not : (after (.seVxNn 0x3 0x2A) (withRegs [(0x3, 0x2B)])).pc = 0x202 := by decide
theorem test_sne_nn : (after (.sneVxNn 0x3 0x00) (withRegs [(0x3, 0x2A)])).pc = 0x204 := by decide
theorem test_sne_nn_not : (after (.sneVxNn 0x3 0x2A) (withRegs [(0x3, 0x2A)])).pc = 0x202 := by decide
theorem test_se_vy : (after (.seVxVy 0x1 0x2) (withRegs [(0x1, 7), (0x2, 7)])).pc = 0x204 := by decide
theorem test_se_vy_not : (after (.seVxVy 0x1 0x2) (withRegs [(0x1, 7), (0x2, 8)])).pc = 0x202 := by decide
theorem test_sne_vy : (after (.sneVxVy 0x1 0x2) (withRegs [(0x1, 7), (0x2, 8)])).pc = 0x204 := by decide
theorem test_sne_vy_not : (after (.sneVxVy 0x1 0x2) (withRegs [(0x1, 7), (0x2, 7)])).pc = 0x202 := by decide

/-! ### Registers and arithmetic (section 2.4) -/

theorem test_ld_nn : (after (.ldVxNn 0xA 0x3C) State.reset).getReg 0xA = 0x3C := by decide
theorem test_add_nn_wraps_without_flag :
    (after (.addVxNn 0x0 0x05) (withRegs [(0x0, 0xFE), (0xF, 1)])).getReg 0x0 = 0x03 ∧
    (after (.addVxNn 0x0 0x05) (withRegs [(0x0, 0xFE), (0xF, 1)])).getReg 0xF = 0x01 := by decide
theorem test_add_nn_to_flag_register : (after (.addVxNn 0xF 0x02) (withRegs [(0xF, 0xFF)])).getReg 0xF = 0x01 := by decide
theorem test_ld_vy : (after (.ldVxVy 0x1 0x2) (withRegs [(0x2, 0x55)])).getReg 0x1 = 0x55 := by decide
theorem test_or : (after (.orVxVy 0x1 0x2) (withRegs [(0x1, 0x0F), (0x2, 0xF0)])).getReg 0x1 = 0xFF := by decide
theorem test_and : (after (.andVxVy 0x1 0x2) (withRegs [(0x1, 0x3C), (0x2, 0x0F)])).getReg 0x1 = 0x0C := by decide
theorem test_xor :
    (after (.xorVxVy 0x1 0x2) (withRegs [(0x1, 0xFF), (0x2, 0x0F), (0xF, 1)])).getReg 0x1 = 0xF0 ∧
    (after (.xorVxVy 0x1 0x2) (withRegs [(0x1, 0xFF), (0x2, 0x0F), (0xF, 1)])).getReg 0xF = 0x01 := by decide
theorem test_add_sum_256 :
    (after (.addVxVy 0x0 0x1) (withRegs [(0x0, 0xFF), (0x1, 0x01)])).getReg 0x0 = 0x00 ∧
    (after (.addVxVy 0x0 0x1) (withRegs [(0x0, 0xFF), (0x1, 0x01)])).getReg 0xF = 0x01 := by decide
theorem test_add_to_flag_register : (after (.addVxVy 0xF 0x1) (withRegs [(0xF, 0x10), (0x1, 0x20)])).getReg 0xF = 0x00 := by decide
theorem test_sub_borrows :
    (after (.subVxVy 0x0 0x1) (withRegs [(0x0, 0x00), (0x1, 0x01)])).getReg 0x0 = 0xFF ∧
    (after (.subVxVy 0x0 0x1) (withRegs [(0x0, 0x00), (0x1, 0x01)])).getReg 0xF = 0x00 := by decide
theorem test_sub_equal : (after (.subVxVy 0x0 0x1) (withRegs [(0x0, 5), (0x1, 5)])).getReg 0xF = 0x01 := by decide
theorem test_shr_ignores_y :
    (after (.shrVx 0x3 0xC) (withRegs [(0x3, 0x04), (0xC, 0xFF)])).getReg 0x3 = 0x02 ∧
    (after (.shrVx 0x3 0xC) (withRegs [(0x3, 0x04), (0xC, 0xFF)])).getReg 0xF = 0x00 := by decide
theorem test_shr_of_flag_register : (after (.shrVx 0xF 0xF) (withRegs [(0xF, 0x03)])).getReg 0xF = 0x01 := by decide
theorem test_subn :
    (after (.subnVxVy 0x0 0x1) (withRegs [(0x0, 3), (0x1, 5)])).getReg 0x0 = 0x02 ∧
    (after (.subnVxVy 0x0 0x1) (withRegs [(0x0, 3), (0x1, 5)])).getReg 0xF = 0x01 := by decide
theorem test_subn_borrows :
    (after (.subnVxVy 0x0 0x1) (withRegs [(0x0, 5), (0x1, 3)])).getReg 0x0 = 0xFE ∧
    (after (.subnVxVy 0x0 0x1) (withRegs [(0x0, 5), (0x1, 3)])).getReg 0xF = 0x00 := by decide
theorem test_shl :
    (after (.shlVx 0x0 0x0) (withRegs [(0x0, 0x81)])).getReg 0x0 = 0x02 ∧
    (after (.shlVx 0x0 0x0) (withRegs [(0x0, 0x81)])).getReg 0xF = 0x01 := by decide
theorem test_shl_of_flag_register : (after (.shlVx 0xF 0x0) (withRegs [(0xF, 0x80)])).getReg 0xF = 0x01 := by decide
/-- The drawn byte is free: the test fixes the mask and that `I` is not the destination. -/
theorem test_rnd : (after (.rndVxNn 0x1 0x0F) State.reset).getReg 0x1 = Config.randByte 0 &&& 0x0F := rfl
theorem test_rnd_leaves_index : (after (.rndVxNn 0x1 0xFF) (State.reset.setIdx 0x123)).idx = 0x123 := by decide

/-! ### Index and memory (section 2.5) -/

theorem test_ld_i : (after (.ldINnn 0xFFF) State.reset).idx = 0xFFF := by decide
theorem test_add_i_wraps :
    (after (.addIVx 0x0) ((withRegs [(0x0, 5)]).setIdx 0xFFE)).idx = 0x003 ∧
    (after (.addIVx 0x0) ((withRegs [(0x0, 5)]).setIdx 0xFFE)).getReg 0xF = 0x00 := by decide
theorem test_ld_f : (after (.ldFVx 0x2) (withRegs [(0x2, 0x0A)])).idx = 0x082 := by decide
theorem test_ld_f_is_not_masked : (after (.ldFVx 0x2) (withRegs [(0x2, 0xFF)])).idx = 0x54B := by decide
theorem test_ld_b : (after (.ldBVx 0x0) ((withRegs [(0x0, 234)]).setIdx 0x300)).readBytes 0x300 4 = [2, 3, 4, 0] := by decide
theorem test_ld_b_faults :
    (after (.ldBVx 0x0) ((withRegs [(0x0, 1)]).setIdx 0xFFE)).status = .faulted (.memBounds 0x1000) (some 0xF033) 0x200 ∧
    (after (.ldBVx 0x0) ((withRegs [(0x0, 1)]).setIdx 0xFFE)).mem = [] := by decide
theorem test_store_regs :
    (after (.ldMemIVx 0x3) ((withRegs [(0x0, 0x11), (0x1, 0x22), (0x2, 0x33), (0x3, 0x44)]).setIdx 0x400)).readBytes 0x400 4
      = [0x11, 0x22, 0x33, 0x00] := by decide
theorem test_store_regs_none_cannot_fault : (after (.ldMemIVx 0x0) (State.reset.setIdx 0xFFF)).status = .running := by decide
theorem test_load_regs :
    (after (.ldVxMemI 0x3) (((withRegs [(0x3, 0x77)]).writeBytes 0x300 [2, 3, 4, 0]).setIdx 0x300)).lowRegs 4
      = [2, 3, 4, 0x77] := by decide
theorem test_load_regs_inclusive :
    (after (.ldVxMemI 0x3)
      ((((configured { regxferInclusive := true }).setReg 0x3 0x77).writeBytes 0x300 [2, 3, 4, 0]).setIdx 0x300)).lowRegs 4
      = [2, 3, 4, 0x00] := by decide

/-- Rule R42: the font is read at 0x050 after reset, and a store there is seen (rule R49). -/
theorem test_font_bytes : State.reset.readBytes 0x055 5 = [0x20, 0x60, 0x20, 0x20, 0x70] := by decide
theorem test_font_overwritten : ((State.reset.writeByte 0x050 0x00).writeByte 0x051 0xFF).readBytes 0x050 3 = [0x00, 0xFF, 0x90] := by
  decide
/-- Storing the value an unlisted byte has removes its entry. -/
theorem test_memory_canonical : (((State.reset.writeByte 0x300 0x01).writeByte 0x200 0x02).writeByte 0x300 0x00).mem = [(0x200, 0x02)] := by
  decide
theorem test_memory_wf : Memory.wf State.reset.cfg.font ((State.reset.writeByte 0x300 0x01).writeByte 0x200 0x02).mem = true := by decide
theorem test_memory_wf_refuses : Memory.wf State.reset.cfg.font [(0x300, 0x00)] = false := by decide

/-! ### Framebuffer and draw (section 2.6) -/

/-- One sprite byte at 0x300, `I` pointing at it, the position in `V0` and `V1`. -/
def drawing (sprite column row : Byte) : State :=
  ((withRegs [(0x0, column), (0x1, row)]).writeByte 0x300 sprite).setIdx 0x300

theorem test_fbSet : (fbSet (fbClear.set 25 0xFF) 10 3 false)[25] = 0xDF := by decide +kernel
theorem test_fbXor : (fbXor (fbClear.set 25 0x20) 10 3 true).2 = false ∧ (fbXor fbClear 64 0 true).2 = false := by decide +kernel
theorem test_cls_default : (after .cls (State.reset.setFb (fbClear.set 247 0x03))).fb[247] = 0x03 := by decide +kernel
theorem test_cls_clears :
    (after .cls ((configured { clsClears := true }).setFb (fbClear.set 247 0x03))).fb[247] = 0x00 := by decide +kernel
theorem test_drw_spans_two_bytes :
    (after (.drwVxVyN 0x0 0x1 0x1) (drawing 0xFF 4 0)).fb[0] = 0x0F ∧
    (after (.drwVxVyN 0x0 0x1 0x1) (drawing 0xFF 4 0)).fb[1] = 0xF0 := by decide +kernel
theorem test_drw_collision_and_old_flag_position :
    (after (.drwVxVyN 0xF 0x1 0x1) (((drawing 0x80 0 3).setReg 0xF 10).setFb (fbClear.set 25 0x20))).fb[25] = 0x00 ∧
    (after (.drwVxVyN 0xF 0x1 0x1) (((drawing 0x80 0 3).setReg 0xF 10).setFb (fbClear.set 25 0x20))).getReg 0xF = 0x01 := by
  decide +kernel

/-! ### Keys and timer (section 2.7); the answers are free, so the tests fix what does not depend on them -/

theorem test_skp : (after (.skpVx 0x1) (withRegs [(0x1, 0x42)])).pc = if Config.keyHeld 0 0x42 then 0x204 else 0x202 := rfl
theorem test_sknp : (after (.sknpVx 0x1) (withRegs [(0x1, 0x05)])).pc = if !Config.keyHeld 0 0x05 then 0x204 else 0x202 := rfl
theorem test_key_wait (h : Config.keyCurrent 0 = 0xFF) :
    (after (.ldVxK 0x3) ((withRegs [(0x3, 0x99)]).setPc 0x210)).pc = 0x210 ∧
    (after (.ldVxK 0x3) ((withRegs [(0x3, 0x99)]).setPc 0x210)).getReg 0x3 = 0x99 := by
  simp only [after, exec, execLdVxK, show ((withRegs [(0x3, 0x99)]).setPc 0x210).draws = 0 from rfl, h, Config.keyNone, if_true]
  decide
theorem test_key_taken (h : Config.keyCurrent 0 = 0x07) :
    (after (.ldVxK 0x3) ((withRegs [(0x3, 0x99)]).setPc 0x210)).pc = 0x212 ∧
    (after (.ldVxK 0x3) ((withRegs [(0x3, 0x99)]).setPc 0x210)).getReg 0x3 = 0x07 := by
  simp only [after, exec, execLdVxK, show ((withRegs [(0x3, 0x99)]).setPc 0x210).draws = 0 from rfl, h, Config.keyNone]
  decide
theorem test_ld_dt : (after (.ldVxDt 0x2) (State.reset.setDt 0x3C)).getReg 0x2 = 0x3C := by decide
theorem test_set_dt : (after (.ldDtVx 0x2) (withRegs [(0x2, 0x3C)])).dt = 0x3C := by decide
theorem test_ld_st : after (.ldStVx 0x2) (withRegs [(0x2, 0x3C)]) = (withRegs [(0x2, 0x3C)]).setPc 0x202 := rfl
theorem test_tick : (State.reset.setDt 0x02).timerTick.dt = 0x01 ∧ State.reset.timerTick.dt = 0x00 := by decide

/-! ### Reset, load, fetch, step (section 2.8) -/

theorem test_reset : State.reset.pc = 0x200 ∧ State.reset.lowRegs 16 = List.replicate 16 0x00 ∧ State.reset.status = .running := by decide
theorem test_fetch_big_endian : (State.reset.writeBytes 0x201 [0x12, 0x34]).fetch 0x201 = some 0x1234 := by decide
theorem test_fetch_bounds : State.reset.fetch 0xFFF = none := by decide
/-- The first step with nothing loaded: `FAULTED(DecodeFault, 0x0000, 0x200)`. -/
theorem test_step_after_reset :
    step State.reset = .next (State.reset.hostTurn.raise .decodeFault (some 0x0000)) := rfl
/-- The program S6: the image 12 00. -/
theorem test_step_self_jump :
    step (State.reset.loadImage [0x12, 0x00]) = .next (State.reset.loadImage [0x12, 0x00]).hostTurn.halt := rfl
theorem test_step_withFetchWord :
    step (State.reset.withFetchWord 16 0x6A3C) = exec (.ldVxNn 0xA 0x3C) (State.reset.withFetchWord 16 0x6A3C).hostTurn := rfl
theorem test_step_while_halted : step State.reset.halt = .fault .stepWhileHalted := rfl

/-! ### Witnesses: a concrete state and operands that meet the hypotheses of each statement, clause by clause -/

/-- A core that halted on the self-jump at 0x200. -/
def haltedCore : State := (State.reset.loadImage [0x12, 0x00]).halt

/-- A core that faulted on the word 0x0000 at 0x200. -/
def faultedCore : State := State.reset.hostTurn.raise .decodeFault (some 0x0000)

theorem witness_Inv_reset : Inv State.reset where
  idx_le := by decide
  pc_le := by decide
  returns_le := fun _ h => (List.not_mem_nil h).elim
  mem_wf := rfl
  stack_within := fun d _ => Nat.zero_le d
  fault_true := fun c w a (h : RunStatus.running = .faulted c w a) => nomatch h
  halt_true := fun (h : RunStatus.running = .halted) => nomatch h
  frames_screen := fun _ h => (List.not_mem_nil h).elim
  load_running := fun _ => rfl

theorem witness_Inv_halted : Inv haltedCore where
  idx_le := by decide
  pc_le := by decide
  returns_le := fun _ h => (List.not_mem_nil h).elim
  mem_wf := by decide
  stack_within := fun d _ => Nat.zero_le d
  fault_true := fun c w a (h : RunStatus.halted = .faulted c w a) => nomatch h
  halt_true := fun _ => ⟨0x200, by decide, by decide⟩
  frames_screen := fun _ h => (List.not_mem_nil h).elim
  load_running := fun (h : false = true) => nomatch h

theorem witness_Inv_faulted : Inv faultedCore where
  idx_le := by decide
  pc_le := by decide
  returns_le := fun _ h => (List.not_mem_nil h).elim
  mem_wf := rfl
  stack_within := fun d _ => Nat.zero_le d
  fault_true := by
    intro c w a (h : RunStatus.faulted .decodeFault (some 0x0000) 0x200 = .faulted c w a)
    cases h
    exact ⟨rfl, rfl, ⟨fun _ => ⟨0x0000, rfl, by decide⟩, fun _ => rfl⟩, by decide,
      fun bad (e : Cause.decodeFault = .memBounds bad) => nomatch e⟩
  halt_true := fun (h : RunStatus.faulted _ _ _ = .halted) => nomatch h
  frames_screen := fun _ h => (List.not_mem_nil h).elim
  load_running := fun (h : false = true) => nomatch h

theorem witness_EncodeOfDecodeIsIdentity : decodeWord 0x83C6 = some (.shrVx 0x3 0xC) := by decide

/-- The last address an instruction can be fetched from. -/
theorem witness_StepRunsTheDecodedInstruction :
    ∃ s : State, s.status = .running ∧ s.pc.toNat = 0xFFE ∧
      decodeWord (wordOfBytes (s.readByte s.pc.toNat) (s.readByte (s.pc.toNat + 1))) = some (.ldVxNn 0xA 0x01) :=
  ⟨(State.reset.setPc 0xFFE).withFetchWord 16 0x6A01, by decide⟩

theorem witness_FetchIsBigEndianAndBounded_inside : (0xFFE : Word).toNat ≤ 0xFFE := by decide
theorem witness_FetchIsBigEndianAndBounded_above :
    ∃ s : State, s.status = .running ∧ 0xFFE < s.pc.toNat ∧ s.pc.toNat ≤ 0xFFF := ⟨State.reset.setPc 0xFFF, by decide⟩

theorem witness_IllegalWordRaisesDecodeFault :
    ∃ (s : State) (w : Word), s.status = .running ∧ s.fetch s.pc = some w ∧ legalWord w = false :=
  ⟨State.reset.withFetchWord 16 0x5121, 0x5121, by decide⟩

theorem witness_StoppedCoreIsAbsorbing_halted :
    haltedCore.status ≠ .running ∧ Inv haltedCore ∧ hostAct .timerTick haltedCore = .next haltedCore :=
  ⟨by decide, witness_Inv_halted, rfl⟩
theorem witness_StoppedCoreIsAbsorbing_faulted :
    faultedCore.status ≠ .running ∧ Inv faultedCore ∧ hostAct .timerTick faultedCore = .next faultedCore :=
  ⟨nofun, witness_Inv_faulted, rfl⟩

theorem witness_StepCompletesHaltsOrFaultsPrecisely : State.reset.status = .running := by decide

theorem witness_StepKeepsInv : Inv State.reset ∧ step State.reset = .next faultedCore := ⟨witness_Inv_reset, rfl⟩

theorem witness_HostActionsKeepInv_load : ∃ t, Inv State.reset ∧ hostAct (.load [0x12, 0x00]) State.reset = .next t :=
  ⟨_, witness_Inv_reset, rfl⟩
theorem witness_HostActionsKeepInv_tick : ∃ t, Inv State.reset ∧ hostAct .timerTick State.reset = .next t :=
  ⟨_, witness_Inv_reset, rfl⟩
theorem witness_HostActionsKeepInv_reset : ∃ t, Inv haltedCore ∧ hostAct .reset haltedCore = .next t :=
  ⟨_, witness_Inv_halted, rfl⟩

/-- The program S6, loaded and stepped once. -/
theorem witness_ReachableStatesHaveInv : ∃ t, Reachable {} t ∧ t.status = .halted :=
  ⟨(State.reset.loadImage [0x12, 0x00]).hostTurn.halt,
    .act .step (.act (.load [0x12, 0x00]) .reset rfl) rfl, rfl⟩

theorem witness_StopsComeFromTheirInstructions_halt :
    ∃ t, exec (.jpNnn 0x200) State.reset = .next t ∧ t.status = .halted := ⟨_, rfl, rfl⟩
theorem witness_StopsComeFromTheirInstructions_fault :
    ∃ t, exec (.ldBVx 0x0) (State.reset.setIdx 0xFFE) = .next t ∧
      t.status = .faulted (.memBounds 0x1000) (some 0xF033) 0x200 := ⟨_, rfl, by decide⟩

theorem witness_OnlyBcdAndStoreChangeMemory :
    ∃ t, exec (.ldVxMemI 0x3) State.reset = .next t ∧ (∀ x, Instr.ldVxMemI 0x3 ≠ .ldBVx x) ∧
      ∀ x, Instr.ldVxMemI 0x3 ≠ .ldMemIVx x := ⟨_, rfl, nofun, nofun⟩
theorem witness_OnlyDrawAndClearChangeTheFramebuffer :
    ∃ t, exec .cls State.reset = .next t ∧ (∀ x y n, Instr.cls ≠ .drwVxVyN x y n) ∧
      (Instr.cls = .cls → State.reset.cfg.clsClears = false) := ⟨_, rfl, nofun, fun _ => rfl⟩
theorem witness_OnlyCallAndReturnChangeTheStack : ∃ t, exec (.callNnn 0x300) State.reset = .next t := ⟨_, rfl⟩
theorem witness_OnlyTheirWritersChangeIndexAndTimer : ∃ t, exec (.addIVx 0x0) State.reset = .next t := ⟨_, rfl⟩
theorem witness_FlagIsWrittenByTheSixOnly_registers :
    ∃ t, exec (.addVxVy 0x0 0x1) State.reset = .next t ∧ (0x2 : RegIx) ∉ destRegs State.reset.cfg (.addVxVy 0x0 0x1) :=
  ⟨_, rfl, by decide⟩
theorem witness_FlagIsWrittenByTheSixOnly_flag :
    ∃ t, exec (.addVxVy 0x0 0x1) State.reset = .next t ∧ writesFlag (.addVxVy 0x0 0x1) = true ∧ t.pc = State.reset.pc + 2 :=
  ⟨_, rfl, by decide, by decide⟩
theorem witness_ProgramCounterSuccessors : ∃ t, exec (.seVxNn 0x0 0x00) State.reset = .next t := ⟨_, rfl⟩

theorem witness_JumpGoesToTargetOrHalts :
    (0x200 : Imm12).toNat = State.reset.pc.toNat ∧ (0x204 : Imm12).toNat ≠ State.reset.pc.toNat := by decide
theorem witness_CallPushesReturnAddressOrOverflows_room : State.reset.cfg.stackDepth ≠ some State.reset.stack.length := by decide
theorem witness_CallPushesReturnAddressOrOverflows_full :
    ∃ s : State, s.cfg.stackDepth = some s.stack.length := ⟨(configured { stackDepth := some 1 }).push 0x0202, by decide⟩
theorem witness_ReturnAdvancesPopsOrUnderflows_advances : State.reset.cfg.retPops = false := by decide
theorem witness_ReturnAdvancesPopsOrUnderflows_pops :
    ∃ s : State, s.cfg.retPops = true ∧ s.stack = 0x0202 :: [] := ⟨(configured { retPops := true }).push 0x0202, by decide⟩
theorem witness_ReturnAdvancesPopsOrUnderflows_underflows :
    ∃ s : State, s.cfg.retPops = true ∧ s.stack = [] := ⟨configured { retPops := true }, by decide⟩
theorem witness_OffsetJumpAddsV0 :
    ∃ s : State, s.status = .running ∧ 0xFFE < (0xFFF : Imm12).toNat + (s.getReg 0x0).toNat :=
  ⟨withRegs [(0x0, 0xFF)], by decide⟩

theorem witness_results_of_flag_writers : (0x0 : RegIx) ≠ 0xF := by decide

/-- The last base at which three bytes fit, and the first at which they do not. -/
theorem witness_BcdStoresThreeDigits :
    (State.reset.setIdx 0xFFD).idx.toNat + 2 ≤ 0xFFF ∧
    0xFFF < (State.reset.setIdx 0xFFE).idx.toNat + 2 ∧ (State.reset.setIdx 0xFFE).idx.toNat ≤ 0xFFF := by decide
/-- Two registers fit at 0xFFE, three do not; with X = 0 there is none to move. -/
theorem witness_StoreAndLoadRegistersAscending :
    (State.reset.setIdx 0xFFE).cfg.regxferInclusive = false ∧
    (State.reset.setIdx 0xFFE).idx.toNat + (0x2 : RegIx).toNat - 1 ≤ 0xFFF ∧
    0 < (0x3 : RegIx).toNat ∧ 0xFFF < (State.reset.setIdx 0xFFE).idx.toNat + (0x3 : RegIx).toNat - 1 ∧
    (State.reset.setIdx 0xFFE).idx.toNat ≤ 0xFFF ∧ (0x0 : RegIx).toNat = 0 := by decide
/-- With `REGXFER_INCLUSIVE` one register fits at 0xFFF, two do not. -/
theorem witness_StoreAndLoadRegistersAscending_inclusive :
    ∃ s : State, s.cfg.regxferInclusive = true ∧ s.idx.toNat ≤ 0xFFF ∧
      s.idx.toNat + ((0x0 : RegIx).toNat + 1) - 1 ≤ 0xFFF ∧ 0xFFF < s.idx.toNat + ((0x1 : RegIx).toNat + 1) - 1 :=
  ⟨(configured { regxferInclusive := true }).setIdx 0xFFF, by decide⟩
theorem witness_StoredRegistersAreFetchedNext :
    2 ≤ (0x2 : RegIx).toNat ∧ (State.reset.setIdx 0xFFD).idx.toNat + (0x2 : RegIx).toNat ≤ 0xFFF := by decide

theorem witness_PixelAddressingIsBijective :
    pixelByte 10 3 = pixelByte 10 3 ∧ pixelBit 10 = pixelBit 10 ∧ (pixelByte 10 3).val = 25 ∧ pixelBit 10 = 5 := by decide
theorem witness_EngineLaws :
    ((63, 31) : Fin 64 × Fin 32) ≠ (62, 31) ∧ (63 < 64 ∧ 31 < 32) ∧ (64 ≤ 64 ∨ 32 ≤ 0) ∧ (64 ≤ 0 ∨ 32 ≤ 32) := by decide

/-- No row at all, and one row whose only byte is the last of memory. -/
theorem witness_DrawXorsPixelsAndFlagsCollision_rows :
    (0x0 : Nibble).toNat = 0 ∧ (State.reset.setIdx 0xFFF).idx.toNat + (0x1 : Nibble).toNat - 1 ≤ 0xFFF := by decide
/-- A sprite bit of 1 on a pixel that is on, and a sprite whose bit of 1 falls beyond column 63. -/
theorem witness_DrawXorsPixelsAndFlagsCollision_collision :
    spriteBit (drawing 0x80 10 3) 10 3 1 10 3 = true ∧ fbGet (fbClear.set 25 0x20) 10 3 = true := by decide +kernel
theorem witness_DrawXorsPixelsAndFlagsCollision_none :
    ∀ (px : Fin 64) (py : Fin 32), spriteBit (drawing 0x01 57 0) 57 0 1 px py = true → fbGet fbClear px py = false := by
  intro px py _
  simp [fbGet, fbClear]
theorem witness_DrawOutsideMemoryFaults :
    0 < (0x2 : Nibble).toNat ∧ 0xFFF < (State.reset.setIdx 0xFFF).idx.toNat + (0x2 : Nibble).toNat - 1 ∧
    (State.reset.setIdx 0xFFF).idx.toNat ≤ 0xFFF := by decide
theorem witness_DrawingTwiceRestores :
    (0x0 : RegIx) ≠ 0xF ∧ (0x1 : RegIx) ≠ 0xF ∧ (drawing 0x80 10 3).idx.toNat + (0x1 : Nibble).toNat - 1 ≤ 0xFFF := by decide

theorem witness_TimerTickDecrementsToZero : (State.reset.setDt 0x02).status = .running := by decide

theorem witness_LoadWritesTheImageOrIsRefused_longest :
    State.reset.loadOpen = true ∧ (List.replicate 3584 (0x00 : Byte)).length ≤ 3584 :=
  ⟨rfl, Nat.le_of_eq List.length_replicate⟩
theorem witness_LoadWritesTheImageOrIsRefused_too_long :
    State.reset.loadOpen = true ∧ 3584 < (List.replicate 3585 (0x00 : Byte)).length :=
  ⟨rfl, Nat.lt_of_lt_of_eq (by decide) List.length_replicate.symm⟩
theorem witness_LoadWritesTheImageOrIsRefused_closed : (State.reset.loadImage []).loadOpen = false := by decide

end Sys2Proof.Tests
end

/-! ## Decoding and encoding -/

section
namespace Sys2Proof

theorem packNNN_of_fieldType {w : Word} {t : Nibble} (h : fieldType w = t) : packNNN t (fieldNNN w) = w :=
  h ▸ packNNN_fields w

theorem packXNN_of_fieldType {w : Word} {t : Nibble} (h : fieldType w = t) :
    packXNN t (fieldX w) (fieldNN w) = w :=
  h ▸ packXNN_fields w

theorem packXYN_of_fieldType {w : Word} {t : Nibble} (h : fieldType w = t) :
    packXYN t (fieldX w) (fieldY w) (fieldN w) = w :=
  h ▸ packXYN_fields w

theorem encode_of_decodeType0 {w : Word} {i : Instr} (h : decodeType0 w = some i) : encode i = w := by
  unfold decodeType0 at h
  split at h <;> cases h <;> rfl

theorem encode_of_decodeType8 {x y : RegIx} {n : Nibble} {i : Instr} (h : decodeType8 x y n = some i) :
    encode i = packXYN 0x8 x y n := by
  unfold decodeType8 at h
  split at h <;> cases h <;> rfl

theorem encode_of_decodeTypeE {x : RegIx} {nn : Byte} {i : Instr} (h : decodeTypeE x nn = some i) :
    encode i = packXNN 0xE x nn := by
  unfold decodeTypeE at h
  split at h <;> cases h <;> rfl

theorem encode_of_decodeTypeF {x : RegIx} {nn : Byte} {i : Instr} (h : decodeTypeF x nn = some i) :
    encode i = packXNN 0xF x nn := by
  unfold decodeTypeF at h
  split at h <;> cases h <;> rfl

/-- A word that decodes is the word of the instruction it decodes to (rules R61, R65). -/
theorem encode_of_decodeWord {w : Word} {i : Instr} (h : decodeWord w = some i) : encode i = w := by
  unfold decodeWord at h
  split at h <;> rename_i htype
  case h_1 => exact encode_of_decodeType0 h
  case h_9 => exact (encode_of_decodeType8 h).trans (packXYN_of_fieldType htype)
  case h_15 => exact (encode_of_decodeTypeE h).trans (packXNN_of_fieldType htype)
  case h_16 => exact (encode_of_decodeTypeF h).trans (packXNN_of_fieldType htype)
  case h_6 | h_10 =>
    all_goals
      split at h <;> cases h
      rename_i hn
      exact (congrArg _ hn.symm).trans (packXYN_of_fieldType htype)
  case h_17 => cases h
  all_goals cases h
  case h_14 => exact packXYN_of_fieldType htype
  case h_2 | h_3 | h_11 | h_12 => all_goals exact packNNN_of_fieldType htype
  case h_4 | h_5 | h_7 | h_8 | h_13 => all_goals exact packXNN_of_fieldType htype

end Sys2Proof
end

/-! ## What each instruction can change -/

section
namespace Sys2Proof

open Sys2Proof.Machine

variable {i : Instr} {s t : State}

/-! ### Frames -/

theorem ChangesOnly.mono {parts parts' : List Part} {dests dests' : List RegIx} (h : ChangesOnly parts dests s t)
    (hp : parts ⊆ parts') (hd : dests ⊆ dests') : ChangesOnly parts' dests' s t where
  regs r hr := h.regs r fun e => hr (hd e)
  pc hn := h.pc fun e => hn (hp e)
  idx hn := h.idx fun e => hn (hp e)
  stack hn := h.stack fun e => hn (hp e)
  dt hn := h.dt fun e => hn (hp e)
  fb hn := h.fb fun e => hn (hp e)
  mem hn := h.mem fun e => hn (hp e)
  status hn := h.status fun e => hn (hp e)
  draws hn := h.draws fun e => hn (hp e)
  frames hn := h.frames fun e => hn (hp e)
  cfg := h.cfg
  loadOpen := h.loadOpen

theorem ChangesOnly.refl (s : State) : ChangesOnly [] [] s s := by constructor <;> intros <;> rfl

/-- A fault changes the run status, and so no more than any frame with the status in it. -/
theorem raise_changesOnly (cause : Cause) (word : Option Word) {parts : List Part} (dests : List RegIx)
    (hp : .status ∈ parts) : ChangesOnly parts dests s (s.raise cause word) :=
  (raise_faultsWith cause word s).2.mono (by simpa using hp) (List.nil_subset dests)

theorem advance_changesOnly (s : State) : ChangesOnly [.pc] [] s s.advance := by constructor <;> simp

theorem skipIf_changesOnly (s : State) (c : Bool) : ChangesOnly [.pc] [] s (s.advance.skipIf c) := by
  constructor <;> simp

theorem setIdx_changesOnly (s : State) (value : Word) : ChangesOnly [.pc, .idx] [] s (s.advance.setIdx value) := by
  constructor <;> simp

theorem setFb_changesOnly (s : State) (fb : Framebuffer) : ChangesOnly [.fb] [] s (s.setFb fb) := by
  constructor <;> simp

/-- One register write with an answer of the environment changes the pc, the count of answers and that register only. -/
theorem setReg_nextDraw_changesOnly (s : State) (x : RegIx) (b : Byte) :
    ChangesOnly [.pc, .draws] [x] s (s.advance.nextDraw.setReg x b) := by
  constructor <;> try simp
  intro r hr
  simp [State.getReg_setReg, hr]

/-- Loading registers after the advance changes the pc and those registers only. -/
theorem loadRegs_changesOnly (s : State) (base : Nat) {count : Nat} (hc : count ≤ 16) :
    ChangesOnly [.pc] ((List.range count).map (BitVec.ofNat 4)) s (s.advance.loadRegs base count) := by
  constructor <;> try simp
  intro r hr
  rw [State.getReg_loadRegs count hc, if_neg, State.advance_getReg]
  exact fun hlt => hr r.toNat hlt (by simp)

/-- A draw that does not fault changes the pc, `VF`, the framebuffer and the record of frames only. -/
theorem draw_changesOnly (s : State) (fb : Framebuffer) (flag : Bool) :
    ChangesOnly [.pc, .fb, .frames] [flagReg] s (((s.advance.setFb fb).setFlag flag).emitFrame) := by
  constructor <;> try simp [State.setFlag]
  intro r hr
  simp [State.getReg_setReg, hr]

/-! ### One frame for each instruction -/

/-- The parts beside the general registers that an instruction can change. -/
def partsWritten : Instr → List Part
  | .cls => [.pc, .fb]
  | .ret | .callNnn _ => [.pc, .stack, .status]
  | .jpNnn _ | .ldVxMemI _ => [.pc, .status]
  | .skpVx _ | .sknpVx _ | .ldVxK _ | .rndVxNn _ _ => [.pc, .draws]
  | .drwVxVyN _ _ _ => [.pc, .fb, .frames, .status]
  | .ldINnn _ | .addIVx _ | .ldFVx _ => [.pc, .idx]
  | .ldDtVx _ => [.pc, .dt]
  | .ldBVx _ | .ldMemIVx _ => [.pc, .mem, .status]
  | _ => [.pc]

/-- The registers an instruction can change: its destinations, and `VF` for the six flag writers (rule R21). -/
def regsWritten (cfg : Config) (i : Instr) : List RegIx :=
  destRegs cfg i ++ if writesFlag i then [flagReg] else []

/-- Every instruction changes at most the parts and registers it writes. -/
theorem exec_changesOnly (h : exec i s = .next t) : ChangesOnly (partsWritten i) (regsWritten s.cfg i) s t := by
  cases i <;> obtain rfl := Host.Outcome.next.inj h
  case ldVxNn | addVxNn | ldVxVy | orVxVy | andVxVy | xorVxVy | ldVxDt => all_goals exact setReg_changesOnly ..
  case addVxVy | subVxVy | shrVx | subnVxVy | shlVx => all_goals exact setResultThenFlag_changesOnly ..
  case seVxNn | sneVxNn | seVxVy | sneVxVy => all_goals exact skipIf_changesOnly ..
  case ldINnn | addIVx | ldFVx => all_goals exact setIdx_changesOnly ..
  case ldStVx => exact advance_changesOnly s
  case skpVx | sknpVx | ldDtVx | jpV0Nnn => all_goals constructor <;> simp [partsWritten]
  case rndVxNn => exact setReg_nextDraw_changesOnly ..
  case ldVxK =>
    split
    · constructor <;> simp [partsWritten]
    · exact setReg_nextDraw_changesOnly ..
  case cls => split <;> constructor <;> simp [partsWritten]
  case jpNnn => split <;> constructor <;> simp [partsWritten]
  case callNnn =>
    split
    · exact raise_changesOnly _ _ _ (by simp [partsWritten])
    · constructor <;> simp [partsWritten]
  case ret =>
    split
    · split
      · exact raise_changesOnly _ _ _ (by simp [partsWritten])
      · constructor <;> simp [partsWritten]
    · exact (advance_changesOnly s).mono (by simp [partsWritten]) (List.nil_subset _)
  case ldBVx | ldMemIVx =>
    all_goals
      split
      · exact raise_changesOnly _ _ _ (by simp [partsWritten])
      · exact (writeBytes_changesOnly ..).mono (by simp [partsWritten]) (List.nil_subset _)
  case ldVxMemI =>
    split
    · exact raise_changesOnly _ _ _ (by simp [partsWritten])
    · exact (loadRegs_changesOnly s _ (regCount_le ..)).mono (by simp [partsWritten]) (List.subset_append_left ..)
  case drwVxVyN =>
    split
    · exact raise_changesOnly _ _ _ (by simp [partsWritten])
    · exact (draw_changesOnly ..).mono (by simp [partsWritten]) (by simp [regsWritten, writesFlag])

end Sys2Proof
end

/-! ## What only certain instructions change -/

section
namespace Sys2Proof

open Sys2Proof.Machine

variable {i : Instr} {s t : State}

/-! ### The framebuffer and the frames (rules R26, R139) -/

/-- 00E0 with `CLS_CLEARS` off is the advance alone (rule R136). -/
theorem exec_cls_of_not_clears (hc : s.cfg.clsClears = false) : exec .cls s = .next s.advance := by
  simp [exec, execCls, hc]

/-- 00E0 with `CLS_CLEARS` on is the advance and a zero framebuffer (rule R136). -/
theorem exec_cls_of_clears (hc : s.cfg.clsClears = true) : exec .cls s = .next (s.advance.setFb fbClear) := by
  simp [exec, execCls, hc]

/-- A frame is handed over by DXYN alone, and it has the dimensions of the screen (rule R139). -/
theorem exec_frames_cases (h : exec i s = .next t) :
    t.frames = s.frames ∨ ((∃ x y n, i = .drwVxVyN x y n) ∧ t.frames = { pixels := t.fb } :: s.frames) := by
  cases i
  case drwVxVyN x y n =>
    obtain rfl := Host.Outcome.next.inj h
    split
    · exact .inl rfl
    · exact .inr ⟨⟨x, y, n, rfl⟩, rfl⟩
  all_goals exact .inl ((exec_changesOnly h).frames (by simp [partsWritten]))

/-- Settles O17: the frame of every instruction but DXYN and 00E0 leaves out the framebuffer. -/
theorem onlyDrawAndClearChangeTheFramebuffer : Obligations.OnlyDrawAndClearChangeTheFramebuffer := by
  intro i s t h hdraw
  refine ⟨?_, fun hclear => ?_⟩
  · obtain hf | ⟨⟨x, y, n, rfl⟩, -⟩ := exec_frames_cases h
    · exact hf
    · exact absurd rfl (hdraw x y n)
  · cases i
    case cls =>
      obtain rfl := Host.Outcome.next.inj ((exec_cls_of_not_clears (hclear rfl)).symm.trans h)
      rfl
    case drwVxVyN x y n => exact absurd rfl (hdraw x y n)
    all_goals exact (exec_changesOnly h).fb (by simp [partsWritten])

/-! ### The call stack (rule R24) -/

/-- What an instruction does to the call stack: nothing, a push that had room, or a pop. -/
theorem exec_stack_cases (h : exec i s = .next t) :
    t.stack = s.stack ∨
    ((∃ nnn, i = .callNnn nnn) ∧ s.cfg.stackDepth ≠ some s.stack.length ∧ t.stack = (s.pc + 2) :: s.stack) ∨
    (i = .ret ∧ s.cfg.retPops = true ∧ t.stack = s.stack.tail) := by
  cases i
  case callNnn nnn =>
    obtain rfl := Host.Outcome.next.inj h
    split
    · exact .inl rfl
    · rename_i hroom
      exact .inr (.inl ⟨⟨nnn, rfl⟩, hroom, rfl⟩)
  case ret =>
    obtain rfl := Host.Outcome.next.inj h
    split
    · rename_i hpops
      split
      · exact .inl rfl
      · exact .inr (.inr ⟨rfl, hpops, rfl⟩)
    · exact .inl rfl
  all_goals exact .inl ((exec_changesOnly h).stack (by simp [partsWritten]))

/-- Settles O18, which forgets that a push had room. -/
theorem onlyCallAndReturnChangeTheStack : Obligations.OnlyCallAndReturnChangeTheStack := by
  intro i s t h
  obtain hsame | ⟨hcall, -, hpush⟩ | hpop := exec_stack_cases h
  · exact .inl hsame
  · exact .inr (.inl ⟨hcall, hpush⟩)
  · exact .inr (.inr hpop)

/-! ### `I` and `DT` (rules R23, R25) -/

theorem immAddr_le (nnn : Imm12) : (immAddr nnn).toNat ≤ 0xFFF := by
  have := nnn.isLt
  rw [immAddr_toNat]; omega

theorem indexSum_le (idx : Word) (vx : Byte) : (indexSum idx vx).toNat ≤ 0xFFF := by
  rw [indexSum, BitVec.toNat_and]
  exact Nat.and_le_right

theorem glyphAddr_le (vx : Byte) : (glyphAddr vx).toNat ≤ 0xFFF := by
  have := vx.isLt
  rw [glyphAddr_toNat]; omega

/-- Settles O19: the three writers of `I` stay within 12 bits, and every other frame leaves out `I`; so for `DT`. -/
theorem onlyTheirWritersChangeIndexAndTimer : Obligations.OnlyTheirWritersChangeIndexAndTimer := by
  intro i s t h
  constructor
  · cases i
    case ldINnn nnn =>
      obtain rfl := Host.Outcome.next.inj h
      exact .inr ⟨immAddr_le nnn, .inl ⟨nnn, rfl⟩⟩
    case addIVx x =>
      obtain rfl := Host.Outcome.next.inj h
      exact .inr ⟨indexSum_le .., .inr (.inl ⟨x, rfl⟩)⟩
    case ldFVx x =>
      obtain rfl := Host.Outcome.next.inj h
      exact .inr ⟨glyphAddr_le _, .inr (.inr ⟨x, rfl⟩)⟩
    all_goals exact .inl ((exec_changesOnly h).idx (by simp [partsWritten]))
  · cases i
    case ldDtVx x => exact .inr ⟨x, rfl⟩
    all_goals exact .inl ((exec_changesOnly h).dt (by simp [partsWritten]))

/-! ### Registers and `VF` (rule R21) -/

theorem flagByte_eq_zero_or_one (flag : Bool) : flagByte flag = 0x00 ∨ flagByte flag = 0x01 := by
  cases flag
  · exact .inl rfl
  · exact .inr rfl

theorem getReg_setFlag_flagReg (s : State) (flag : Bool) : (s.setFlag flag).getReg flagReg = flagByte flag :=
  State.setReg_getReg_self ..

/-- An instruction that leaves the pc where it was has not advanced. -/
theorem ne_add_two (p : Word) : p ≠ p + 2 := by simp

/-- A flag writer that completes leaves a flag byte in `VF`. -/
theorem exists_flag_of_writesFlag (hw : writesFlag i = true) (h : exec i s = .next t) (hpc : t.pc = s.pc + 2) :
    ∃ flag, t.getReg 0xF = flagByte flag := by
  cases i
  case addVxVy | subVxVy | shrVx | subnVxVy | shlVx =>
    all_goals
      obtain rfl := Host.Outcome.next.inj h
      exact ⟨_, getReg_flag ..⟩
  case drwVxVyN =>
    obtain rfl := Host.Outcome.next.inj h
    revert hpc
    split
    · exact fun hpc => absurd hpc (ne_add_two s.pc)
    · exact fun _ => ⟨_, getReg_setFlag_flagReg ..⟩
  all_goals exact nomatch hw

/-- Settles O20: registers by the frame of the instruction; a flag writer that completes has written a flag byte last. -/
theorem flagIsWrittenByTheSixOnly : Obligations.FlagIsWrittenByTheSixOnly := by
  intro i s t h
  refine ⟨fun r hdest hflag => (exec_changesOnly h).regs r ?_, fun hw hpc => ?_⟩
  · unfold regsWritten
    split
    · rename_i hw
      have hne : r ≠ flagReg := fun e => absurd hw (Bool.eq_false_iff.mp (hflag e))
      simp [hdest, hne]
    · simpa using hdest
  · obtain ⟨flag, hflag⟩ := exists_flag_of_writesFlag hw h hpc
    rw [hflag]
    exact flagByte_eq_zero_or_one flag

/-! ### The pc (rule R22) -/

theorem skipIf_pc_cases (s : State) (c : Bool) :
    (s.advance.skipIf c).pc = s.pc + 2 ∨ (s.advance.skipIf c).pc = s.pc + 4 := by
  cases c
  · exact .inl rfl
  · exact .inr (BitVec.add_assoc s.pc 2 2)

/-- Settles O21, by the branches of each instruction's meaning: where none writes the pc, it is the advance's. -/
theorem programCounterSuccessors : Obligations.ProgramCounterSuccessors := by
  intro i s t h
  cases i <;> obtain rfl := Host.Outcome.next.inj h <;> dsimp only
  case seVxNn | sneVxNn | seVxVy | sneVxVy => all_goals exact skipIf_pc_cases s _
  case skpVx | sknpVx => all_goals exact skipIf_pc_cases s.nextDraw _
  case jpNnn nnn => split <;> exact immAddr_toNat nnn
  case callNnn nnn =>
    split
    · rename_i hfull
      exact .inr ⟨rfl, hfull⟩
    · exact .inl (immAddr_toNat nnn)
  case jpV0Nnn nnn => exact offsetTarget_toNat nnn _
  case ret =>
    split
    · rename_i hpops
      split
      · rename_i hempty
        exact .inr ⟨hpops, .inr ⟨hempty, rfl⟩⟩
      · rename_i htop
        exact .inr ⟨hpops, .inl (by rw [htop]; rfl)⟩
    · exact .inl rfl
  case ldVxK =>
    split
    · exact .inl (BitVec.add_sub_cancel s.pc 2)
    · exact .inr rfl
  case drwVxVyN | ldBVx | ldMemIVx | ldVxMemI =>
    all_goals
      split
      · exact .inr ⟨rfl, _, _, rfl⟩
      · exact .inl (by simp [State.setFlag])
  case cls => split <;> rfl
  all_goals rfl

end Sys2Proof
end

/-! ## The framebuffer is not read -/

section
namespace Sys2Proof

open Sys2Proof.Machine

variable {i : Instr} {s t : State}

theorem writeBytes_setFb (bytes : List Byte) (s : State) (base : Nat) (fb : Framebuffer) :
    (s.setFb fb).writeBytes base bytes = (s.writeBytes base bytes).setFb fb := by
  induction bytes generalizing s base with
  | nil => rfl
  | cons b rest ih => exact ih (s.writeByte base b) (base + 1)

theorem loadRegs_setFb (count : Nat) (s : State) (base : Nat) (fb : Framebuffer) :
    (s.setFb fb).loadRegs base count = (s.loadRegs base count).setFb fb := by
  induction count with
  | zero => rfl
  | succ k ih =>
    rw [State.loadRegs, ih]
    rfl

/-- An instruction that neither draws nor clears goes the same way whatever the framebuffer holds, and leaves it. -/
theorem exec_setFb (fb : Framebuffer) (hdraw : ∀ x y n, i ≠ .drwVxVyN x y n)
    (hclear : i = .cls → s.cfg.clsClears = false) (h : exec i s = .next t) :
    exec i (s.setFb fb) = .next (t.setFb fb) := by
  cases i
  case drwVxVyN x y n => exact absurd rfl (hdraw x y n)
  case cls =>
    obtain rfl := Host.Outcome.next.inj ((exec_cls_of_not_clears (hclear rfl)).symm.trans h)
    exact exec_cls_of_not_clears (s := s.setFb fb) (hclear rfl)
  all_goals obtain rfl := Host.Outcome.next.inj h
  case jpNnn nnn => by_cases hself : immAddr nnn = s.pc <;> simp only [exec, execJpNnn, State.setFb_pc, hself] <;> rfl
  case callNnn =>
    by_cases hfull : s.cfg.stackDepth = some s.stack.length <;>
      simp only [exec, execCallNnn, State.setFb_cfg, State.setFb_stack, hfull] <;> rfl
  case ldVxK =>
    by_cases hkey : Config.keyCurrent s.draws = Config.keyNone <;>
      simp only [exec, execLdVxK, State.setFb_draws, hkey] <;> rfl
  case ret =>
    cases hpops : s.cfg.retPops <;> cases hstack : s.stack <;>
      simp only [exec, execRet, State.setFb_cfg, State.setFb_stack, hpops, hstack] <;> rfl
  case ldBVx =>
    cases hrange : firstOutOfRange s.idx 3 <;> simp only [exec, execLdBVx, State.setFb_idx, hrange]
    · exact congrArg _ (writeBytes_setFb _ s.advance _ fb)
    · rfl
  case ldMemIVx x =>
    cases hrange : firstOutOfRange s.idx (regCount s.cfg x) <;>
      simp only [exec, execLdMemIVx, State.setFb_idx, State.setFb_cfg, hrange]
    · exact congrArg _ (writeBytes_setFb _ s.advance _ fb)
    · rfl
  case ldVxMemI x =>
    cases hrange : firstOutOfRange s.idx (regCount s.cfg x) <;>
      simp only [exec, execLdVxMemI, State.setFb_idx, State.setFb_cfg, hrange]
    · exact congrArg _ (loadRegs_setFb _ s.advance _ fb)
    · rfl
  all_goals rfl

/-- DXYN on two framebuffers: the position, the rows and the range check are the same, so only the picture, the collision
flag and the frame handed over can differ. -/
theorem exec_draw_setFb {x y : RegIx} {n : Nibble} {u : State} (fb : Framebuffer)
    (ht : exec (.drwVxVyN x y n) s = .next t) (hu : exec (.drwVxVyN x y n) (s.setFb fb) = .next u) :
    ChangesOnly [.fb, .frames] [0xF] t u := by
  obtain rfl := Host.Outcome.next.inj ht
  obtain rfl := Host.Outcome.next.inj hu
  cases hrange : firstOutOfRange s.idx n.toNat <;> simp only [State.setFb_idx, hrange]
  case some bad =>
    exact (setFb_changesOnly (s.raise _ _) fb).mono (by simp) (List.nil_subset _)
  case none =>
    constructor <;> try simp [State.setFlag]
    intro r hr
    simp [State.getReg_setReg, flagReg, hr]

/-- Settles O15: DXYN by its own lemma; 00E0, when it clears, meets in one state; the rest commute with the change. -/
theorem framebufferIsSeenThroughTheFlagOnly : Obligations.FramebufferIsSeenThroughTheFlagOnly := by
  intro i s fb
  obtain ⟨t, ht⟩ := exec_total i s
  by_cases hdraw : ∃ x y n, i = .drwVxVyN x y n
  · obtain ⟨x, y, n, rfl⟩ := hdraw
    obtain ⟨u, hu⟩ := exec_total (.drwVxVyN x y n) (s.setFb fb)
    exact ⟨t, u, ht, hu, exec_draw_setFb fb ht hu, fun hne => absurd rfl (hne x y n)⟩
  · suffices h : ∃ u, exec i (s.setFb fb) = .next u ∧ ChangesOnly [.fb] [] t u by
      obtain ⟨u, hu, hfb⟩ := h
      exact ⟨t, u, ht, hu, hfb.mono (by simp) (List.nil_subset _), fun _ => hfb⟩
    by_cases hclear : i = .cls ∧ s.cfg.clsClears = true
    · obtain ⟨rfl, hc⟩ := hclear
      obtain rfl := Host.Outcome.next.inj ((exec_cls_of_clears hc).symm.trans ht)
      exact ⟨_, exec_cls_of_clears (s := s.setFb fb) hc,
        (ChangesOnly.refl _).mono (List.nil_subset _) (List.nil_subset _)⟩
    · refine ⟨t.setFb fb, exec_setFb fb ?_ ?_ ht, setFb_changesOnly t fb⟩
      · exact fun x y n e => hdraw ⟨x, y, n, e⟩
      · exact fun e => Bool.eq_false_iff.mpr fun hc => hclear ⟨e, hc⟩

end Sys2Proof
end

/-! ## The invariant -/

section
namespace Sys2Proof

open Sys2Proof.Machine

variable {i : Instr} {s t : State}

/-! ### A running core has no end of a run to record -/

theorem faultRecordTrue_of_running (hr : s.status = .running) : FaultRecordTrue s := by
  intro cause word addr h
  simp [hr] at h

theorem haltIsSelfJump_of_running (hr : s.status = .running) : HaltIsSelfJump s := by
  intro h
  simp [hr] at h

/-! ### The actions of the host beside the step (rules R190, R192, R194) -/

/-- Settles O11: everything is zero or empty, and the core runs. -/
theorem resetHasInv : Obligations.ResetHasInv := by
  intro cfg
  constructor
  case mem_wf => exact State.resetWith_mem_wf cfg
  case stack_within => exact fun d _ => Nat.zero_le d
  case idx_le | pc_le => all_goals simp [State.resetWith]
  case returns_le | frames_screen => all_goals exact nofun
  case fault_true | halt_true => all_goals exact nofun
  case load_running => exact fun _ => rfl

theorem inv_hostReset (s : State) : Inv s.hostReset :=
  { resetHasInv s.cfg with }

/-- The timer is not in the invariant. -/
theorem Inv.timerTick (hi : Inv s) : Inv s.timerTick := by
  unfold State.timerTick
  split
  · exact { hi with }
  · exact hi
  · exact hi

theorem Inv.hostTurn (hi : Inv s) : Inv s.hostTurn :=
  { hi with load_running := nofun }

/-! ### The ends of a run (rules R160, R167) -/

theorem Inv.raise (hi : Inv s) (hl : s.loadOpen = false) {cause : Cause}
    (hdecode : cause = .decodeFault ↔ ∃ w, s.fetch s.pc = some w ∧ decodeWord w = none)
    (hfetch : cause = .fetchBounds ↔ s.fetch s.pc = none)
    (hbounds : ∀ bad, cause = .memBounds bad → bad = 0x1000) : Inv (s.raise cause (s.fetch s.pc)) :=
  { hi with
    fault_true := by
      rintro _ _ _ ⟨⟩
      exact ⟨rfl, rfl, hdecode, hfetch, hbounds⟩
    halt_true := nofun
    load_running := fun h => by simp [hl] at h }

theorem Inv.halt (hi : Inv s) (hl : s.loadOpen = false)
    (hself : ∃ nnn : Imm12, nnn.toNat = s.pc.toNat ∧ s.fetch s.pc = some (encode (.jpNnn nnn))) : Inv s.halt :=
  { hi with
    fault_true := nofun
    halt_true := fun _ => hself
    load_running := fun h => by simp [hl] at h }

/-! ### What an instruction keeps -/

/-- A range check that passes bounds the end of the range (rule R164). -/
theorem end_le_of_firstOutOfRange_eq_none {base : Word} {count : Nat} (hb : base.toNat ≤ 0xFFF)
    (h : firstOutOfRange base count = none) : base.toNat + count ≤ 0x1000 := by
  have := firstOutOfRange_eq_none.mp h
  omega

theorem exec_idx_le (h : exec i s = .next t) (hidx : s.idx.toNat ≤ 0xFFF) : t.idx.toNat ≤ 0xFFF := by
  obtain ⟨hsame | ⟨hle, -⟩, -⟩ := onlyTheirWritersChangeIndexAndTimer i s t h
  · rwa [hsame]
  · exact hle

/-- Every successor of a pc that was fetched from is at most 0x10FE, the greatest target of BNNN (rules R22, R84). -/
theorem exec_pc_le (h : exec i s = .next t) (hpc : s.pc.toNat ≤ 0xFFE) (hret : ∀ r ∈ s.stack, r.toNat ≤ 0x1000) :
    t.pc.toNat ≤ 0x10FE := by
  have hsucc := programCounterSuccessors i s t h
  have h2 := toNat_add_two hpc
  have h4 : (s.pc + 4).toNat = s.pc.toNat + 4 := by rw [BitVec.toNat_add]; simp; omega
  cases i <;> dsimp only at hsucc
  case seVxNn | sneVxNn | seVxVy | sneVxVy | skpVx | sknpVx => all_goals obtain e | e := hsucc <;> rw [e] <;> omega
  case jpNnn nnn => omega
  case callNnn nnn =>
    obtain e | ⟨e, -⟩ := hsucc
    · omega
    · rw [e]; omega
  case jpV0Nnn nnn => omega
  case ret =>
    obtain e | ⟨-, htop | ⟨-, e⟩⟩ := hsucc
    · rw [e]; omega
    · have := hret t.pc (List.mem_of_mem_head? htop)
      omega
    · rw [e]; omega
  case ldVxK => obtain e | e := hsucc <;> rw [e] <;> omega
  case drwVxVyN | ldBVx | ldMemIVx | ldVxMemI => all_goals obtain e | ⟨e, -⟩ := hsucc <;> rw [e] <;> omega
  all_goals rw [hsucc]; omega

/-- Return addresses are addresses after a fetched call (rule R83). -/
theorem exec_returns_le (h : exec i s = .next t) (hpc : s.pc.toNat ≤ 0xFFE)
    (hret : ∀ r ∈ s.stack, r.toNat ≤ 0x1000) : ∀ r ∈ t.stack, r.toNat ≤ 0x1000 := by
  obtain hsame | ⟨-, -, hpush⟩ | ⟨-, -, hpop⟩ := exec_stack_cases h
  · rwa [hsame]
  · have hnew : (s.pc + 2).toNat ≤ 0x1000 := by rw [toNat_add_two hpc]; omega
    rw [hpush]
    exact List.forall_mem_cons.mpr ⟨hnew, hret⟩
  · rw [hpop]
    exact fun r hr => hret r (List.mem_of_mem_tail hr)

theorem exec_stackWithinDepth (h : exec i s = .next t) (hs : StackWithinDepth s) : StackWithinDepth t := by
  intro d hd
  rw [(exec_changesOnly h).cfg] at hd
  have hle := hs d hd
  obtain hsame | ⟨-, hroom, hpush⟩ | ⟨-, -, hpop⟩ := exec_stack_cases h
  · rwa [hsame]
  · have hne : s.stack.length ≠ d := fun e => hroom (by rw [hd, e])
    rw [hpush, List.length_cons]
    omega
  · rw [hpop, List.length_tail]
    omega

/-- FX33 and FX55 write in range, and nothing else writes memory (rules R40, R164). -/
theorem exec_mem_wf (h : exec i s = .next t) (hidx : s.idx.toNat ≤ 0xFFF) (hm : Memory.wf s.cfg.font s.mem = true) :
    Memory.wf t.cfg.font t.mem = true := by
  cases i <;> obtain rfl := Host.Outcome.next.inj h
  case ldBVx =>
    split
    · exact hm
    · rename_i hrange
      rw [State.writeBytes_cfg]
      exact State.writeBytes_mem_wf _ s.advance _ (end_le_of_firstOutOfRange_eq_none hidx hrange) hm
  case ldMemIVx =>
    split
    · exact hm
    · rename_i hrange
      rw [State.writeBytes_cfg]
      refine State.writeBytes_mem_wf _ s.advance _ ?_ hm
      rw [State.lowRegs_length]
      exact end_le_of_firstOutOfRange_eq_none hidx hrange
  case ldVxMemI => split <;> simpa using hm
  case cls | jpNnn | callNnn | ldVxK | drwVxVyN => all_goals split <;> exact hm
  case ret => (repeat' split) <;> exact hm
  all_goals exact hm

theorem exec_frames_screen (h : exec i s = .next t) (hf : ∀ f ∈ s.frames, f.width = 64 ∧ f.height = 32) :
    ∀ f ∈ t.frames, f.width = 64 ∧ f.height = 32 := by
  obtain hsame | ⟨-, hnew⟩ := exec_frames_cases h
  · rwa [hsame]
  · rw [hnew]
    exact List.forall_mem_cons.mpr ⟨⟨rfl, rfl⟩, hf⟩

/-- An instruction that leaves the core running keeps the invariant. -/
theorem Inv.exec_of_running (hi : Inv s) (hpc : s.pc.toNat ≤ 0xFFE) (h : exec i s = .next t) (hr : t.status = .running) :
    Inv t where
  idx_le := exec_idx_le h hi.idx_le
  pc_le := exec_pc_le h hpc hi.returns_le
  returns_le := exec_returns_le h hpc hi.returns_le
  mem_wf := exec_mem_wf h hi.idx_le hi.mem_wf
  stack_within := exec_stackWithinDepth h hi.stack_within
  fault_true := faultRecordTrue_of_running hr
  halt_true := haltIsSelfJump_of_running hr
  frames_screen := exec_frames_screen h hi.frames_screen
  load_running := fun _ => hr

/-! ### A step -/

/-- The fetched instruction of a running core keeps the invariant, whichever of its three ends it comes to (rule R160). -/
theorem Inv.exec_of_fetched (hi : Inv s) (hr : s.status = .running) (hl : s.loadOpen = false)
    (hfetch : s.fetch s.pc = some (encode i)) (hdec : decodeWord (encode i) = some i) (h : exec i s = .next t) : Inv t := by
  obtain hgoes | ⟨nnn, rfl, hself, rfl⟩ | ⟨cause, rfl, hnf, hnd, hbad⟩ := exec_next_cases hr h
  · exact hi.exec_of_running (fetch_eq_some.mp hfetch).1 h hgoes
  · exact hi.halt hl ⟨nnn, hself, hfetch⟩
  · rw [← hfetch]
    exact hi.raise hl (by simp [hnd, hfetch, hdec]) (by simp [hnf, hfetch]) (hbad hi.idx_le)

theorem Inv.cycle (hi : Inv s) (hr : s.status = .running) (hl : s.loadOpen = false) (h : cycle s = .next t) : Inv t := by
  obtain ⟨hf, hc⟩ | ⟨w, hf, hd, hc⟩ | ⟨w, i, hf, hd, hc⟩ := cycle_cases s
  · obtain rfl := Host.Outcome.next.inj (hc.symm.trans h)
    rw [← hf]
    exact hi.raise hl (by simp [hf]) (by simp [hf]) nofun
  · obtain rfl := Host.Outcome.next.inj (hc.symm.trans h)
    rw [← hf]
    exact hi.raise hl (by simp [hf, hd]) (by simp [hf]) nofun
  · obtain rfl := encode_of_decodeWord hd
    exact hi.exec_of_fetched hr hl hf hd (hc.symm.trans h)

/-- Settles O10: a step is the turn of the host, which closes the load, and a cycle. -/
theorem stepKeepsInv : Obligations.StepKeepsInv := by
  intro s t hi h
  have hr := running_of_step_next h
  rw [step_running hr] at h
  exact hi.hostTurn.cycle hr rfl h

/-! ### A run -/

/-- A running core keeps the invariant under another canonical memory: only the ends of a run read it. -/
theorem Inv.of_mem_wf (hi : Inv s) (hr : s.status = .running) {m : List Host.Cell} (hm : Memory.wf s.cfg.font m = true) :
    Inv { s with mem := m } :=
  { hi with
    mem_wf := hm
    fault_true := faultRecordTrue_of_running hr
    halt_true := haltIsSelfJump_of_running hr }

/-- An accepted load writes from 0x200 to 0xFFF at most, into a core that is running (rules R43, R192). -/
theorem Inv.loadImage (hi : Inv s) (hopen : s.loadOpen = true) {image : List Byte}
    (hlen : image.length ≤ Config.progMax) : Inv (s.loadImage image) := by
  have hend : Config.progBase + image.length ≤ 0x1000 := by simp at hlen ⊢; omega
  have hm := State.writeBytes_mem_wf image s Config.progBase hend hi.mem_wf
  rw [State.loadImage, State.writeBytes_eq]
  exact { hi.of_mem_wf (hi.load_running hopen) hm with load_running := nofun }

/-- A load that is not refused found the window open and an image that fits (rule R192). -/
theorem hostLoad_next_iff {image : List Byte} :
    hostLoad image s = .next t ↔
      s.loadOpen = true ∧ image.length ≤ Config.progMax ∧ s.loadImage image = t := by
  unfold hostLoad wellFormedImage
  by_cases hopen : s.loadOpen = true
  · by_cases hlen : image.length ≤ 3584 <;> simp [hopen, hlen]
  · simp [hopen]

/-- Every action of the host keeps the invariant. -/
theorem Inv.hostAct {action : HostAction} (hi : Inv s) (h : hostAct action s = .next t) : Inv t := by
  cases action with
  | reset =>
    obtain rfl := Host.Outcome.next.inj h
    exact inv_hostReset s
  | load image =>
    obtain ⟨hopen, hlen, rfl⟩ := hostLoad_next_iff.mp h
    exact hi.loadImage hopen hlen
  | step => exact stepKeepsInv s t hi h
  | timerTick =>
    obtain rfl := Host.Outcome.next.inj h
    exact hi.timerTick

/-- Settles O13, by induction on the run. -/
theorem reachableStatesHaveInv : Obligations.ReachableStatesHaveInv := by
  intro cfg s h
  induction h with
  | reset => exact resetHasInv cfg
  | act action _ hact ih => exact ih.hostAct hact

/-! ### Stop and reset (rules R29, R33, R190) -/

theorem step_stopped (h : s.status ≠ .running) : ∃ f, step s = .fault f := by
  cases hs : s.status with
  | running => exact absurd hs h
  | halted => exact ⟨_, step_halted hs⟩
  | faulted => exact ⟨_, step_faulted hs⟩

theorem timerTick_stopped (h : s.status ≠ .running) : s.timerTick = s := by
  cases hs : s.status with
  | running => exact absurd hs h
  | halted => simp [State.timerTick, hs]
  | faulted => simp [State.timerTick, hs]

/-- Settles O8: of the actions that answer a next state, a stopped core is left the tick, which changes nothing. -/
theorem stoppedCoreIsAbsorbing : Obligations.StoppedCoreIsAbsorbing := by
  intro s hs
  obtain ⟨f, hf⟩ := step_stopped hs
  have htick : hostAct .timerTick s = .next s := congrArg Host.Outcome.next (timerTick_stopped hs)
  refine ⟨⟨f, hf⟩, htick, fun action t hi hreset h => ?_, s.hostReset, rfl, rfl⟩
  cases action with
  | reset => exact absurd rfl hreset
  | load image =>
    obtain ⟨hopen, -, -⟩ := hostLoad_next_iff.mp h
    exact absurd (hi.load_running hopen) hs
  | step => exact nomatch hf.symm.trans h
  | timerTick => exact (Host.Outcome.next.inj (htick.symm.trans h)).symm

/-- Memory after reset holds what no load and no store has written (rules R33, R41). -/
theorem readByte_hostReset (s : State) (a : Nat) : s.hostReset.readByte a = Memory.unlisted s.cfg.font a := rfl

theorem unlisted_font (font : Vector Byte 80) (k : Fin 80) : Memory.unlisted font (0x050 + k.val) = font[k] := by
  have hk : 0x050 ≤ 0x050 + k.val ∧ 0x050 + k.val < 0x0A0 := by omega
  simp [Memory.unlisted, hk]

theorem unlisted_zero (font : Vector Byte 80) {a : Nat} (h : a < 0x050 ∨ 0x0A0 ≤ a) : Memory.unlisted font a = 0x00 :=
  dif_neg (by omega)

theorem getReg_hostReset (s : State) (r : RegIx) : s.hostReset.getReg r = 0x00 := by
  simp [State.getReg, State.hostReset, State.resetWith]

theorem fb_hostReset (s : State) (k : Fin 256) : s.hostReset.fb[k] = 0x00 := by
  simp [State.hostReset, State.resetWith]

/-- Settles O54: every field of the reset state, and memory by what an unlisted address holds. -/
theorem resetLeavesTheResetState : Obligations.ResetLeavesTheResetState := by
  intro s
  refine ⟨s.hostReset, rfl, rfl, fb_hostReset s, fun k => ?_, getReg_hostReset s, rfl, rfl, rfl, rfl, fun a ha => ?_,
    rfl, rfl, rfl⟩
  · rw [readByte_hostReset, unlisted_font]
  · rw [readByte_hostReset, unlisted_zero _ ha]

end Sys2Proof
end

/-! ## Main memory -/

section
namespace Sys2Proof

open Sys2Proof.Machine

variable {s : State}

/-! ### What writes it (rule R40) -/

/-- Settles O16: the frame of every instruction but FX33 and FX55 leaves out memory. -/
theorem onlyBcdAndStoreChangeMemory : Obligations.OnlyBcdAndStoreChangeMemory := by
  intro i s t h hbcd hstore
  cases i
  case ldBVx x => exact absurd rfl (hbcd x)
  case ldMemIVx x => exact absurd rfl (hstore x)
  all_goals exact (exec_changesOnly h).mem (by simp [partsWritten])

/-! ### Reading a byte after storing bytes in a row (rule R45) -/

theorem readByte_writeBytes_add (s : State) (base : Nat) {bytes : List Byte} {k : Nat} (h : k < bytes.length) :
    (s.writeBytes base bytes).readByte (base + k) = bytes[k] := by
  rw [State.readByte_writeBytes, dif_pos (by omega)]
  simp

theorem readByte_writeBytes_outside (s : State) {base a : Nat} {bytes : List Byte} (h : a < base ∨ base + bytes.length ≤ a) :
    (s.writeBytes base bytes).readByte a = s.readByte a := by
  rw [State.readByte_writeBytes, dif_neg (by omega)]

/-! ### The fetch (rules R44, R48) -/

/-- A fetch in range answers the big-endian word of its two bytes, at odd addresses too. -/
theorem exists_fetch_of_le (s : State) {a : Word} (h : a.toNat ≤ 0xFFE) :
    ∃ w, s.fetch a = some w ∧ w.toNat = 256 * (s.readByte a.toNat).toNat + (s.readByte (a.toNat + 1)).toNat :=
  ⟨_, fetch_eq_some.mpr ⟨h, rfl⟩, wordOfBytes_toNat ..⟩

/-- Settles O6: a pc above 0xFFE is a fetch that answers nothing, after the turn of the host too. -/
theorem fetchIsBigEndianAndBounded : Obligations.FetchIsBigEndianAndBounded := by
  refine ⟨fun s _ => exists_fetch_of_le s, fun s hr hpc => ?_⟩
  have hnone : s.hostTurn.fetch s.hostTurn.pc = none := fetch_eq_none.mpr hpc
  exact ⟨_, (step_running hr).trans (cycle_of_fetch_none hnone), raise_faultsWith ..⟩

/-! ### A store that is fetched (rules R44, R53, R124, R126) -/

/-- FX55 in range stores the low registers at `I` and advances. -/
theorem exec_ldMemIVx_of_inRange {x : RegIx} (h : firstOutOfRange s.idx (regCount s.cfg x) = none) :
    exec (.ldMemIVx x) s = .next (s.advance.writeBytes s.idx.toNat (s.lowRegs (regCount s.cfg x))) := by
  simp [exec, execLdMemIVx, h]

/-- In either setting of `REGXFER_INCLUSIVE` the count is X or one more. -/
theorem regCount_bounds (cfg : Config) (x : RegIx) : x.toNat ≤ regCount cfg x ∧ regCount cfg x ≤ x.toNat + 1 := by
  unfold regCount
  split <;> omega

/-- The byte at `I + k` after FX55 has stored at least `k + 1` registers. -/
theorem readByte_store (s : State) {count k : Nat} (h : k < count) :
    (s.advance.writeBytes s.idx.toNat (s.lowRegs count)).readByte (s.idx.toNat + k) = s.getReg (BitVec.ofNat 4 k) := by
  rw [readByte_writeBytes_add _ _ (by simpa using h), State.getElem_lowRegs]

/-- Settles O43: X is at least 2, so the bytes at `I` and `I + 1` are `V[0]` and `V[1]` in both settings. -/
theorem storedRegistersAreFetchedNext : Obligations.StoredRegistersAreFetchedNext := by
  intro x s hx hidx
  obtain ⟨hmin, hmax⟩ := regCount_bounds s.cfg x
  have hrange : firstOutOfRange s.idx (regCount s.cfg x) = none := firstOutOfRange_eq_none.mpr (.inr (by omega))
  obtain ⟨w, hfetch, hw⟩ :=
    exists_fetch_of_le (s.advance.writeBytes s.idx.toNat (s.lowRegs (regCount s.cfg x))) (a := s.idx) (by omega)
  refine ⟨_, w, exec_ldMemIVx_of_inRange hrange, hfetch, ?_⟩
  have hhigh := readByte_store s (show 0 < regCount s.cfg x by omega)
  have hlow := readByte_store s (show 1 < regCount s.cfg x by omega)
  rw [Nat.add_zero] at hhigh
  rw [hw, hhigh, hlow]
  rfl

/-! ### The load (rules R43, R192) -/

/-- An accepted load closes the window and changes no part but memory. -/
theorem loadImage_changesOnly (s : State) (image : List Byte) :
    ChangesOnly [.mem] [] { s with loadOpen := false } (s.loadImage image) := by
  rw [State.loadImage, State.writeBytes_eq]
  constructor <;> simp [State.getReg]

theorem hostLoad_closed (image : List Byte) (hl : s.loadOpen = false) : hostLoad image s = .refused .loadNotAllowed := by
  simp [hostLoad, hl]

theorem hostLoad_too_long {image : List Byte} (hl : s.loadOpen = true) (h : Config.progMax < image.length) :
    hostLoad image s = .refused (.imageTooLong image.length) := by
  have hwf : wellFormedImage image = false := decide_eq_false (Nat.not_le.mpr h)
  simp [hostLoad, hl, hwf]

/-- Settles O55: an accepted load is the bytes stored in a row from 0x200; the two refusals are its two guards. -/
theorem loadWritesTheImageOrIsRefused : Obligations.LoadWritesTheImageOrIsRefused := by
  refine fun image s => ⟨fun hl hlen => ?_, hostLoad_too_long, hostLoad_closed image⟩
  refine ⟨s.loadImage image, hostLoad_next_iff.mpr ⟨hl, hlen, rfl⟩, ?_, ?_, rfl, loadImage_changesOnly s image⟩
  · exact fun k hk => readByte_writeBytes_add s Config.progBase hk
  · exact fun a ha => readByte_writeBytes_outside s ha

end Sys2Proof
end

/-! ## Encoding: the two round trips, the rejected words, and the step of a fetched word -/

section
namespace Sys2Proof

open Sys2Proof.Machine

/-! ### Decoding a packed word, type by type (rules R62, R65) -/

theorem decodeWord_packXYN_type8 (x y : RegIx) (n : Nibble) : decodeWord (packXYN 0x8 x y n) = decodeType8 x y n := by
  simp [decodeWord]

theorem decodeWord_packXNN_typeE (x : RegIx) (nn : Byte) : decodeWord (packXNN 0xE x nn) = decodeTypeE x nn := by
  simp [decodeWord]

theorem decodeWord_packXNN_typeF (x : RegIx) (nn : Byte) : decodeWord (packXNN 0xF x nn) = decodeTypeF x nn := by
  simp [decodeWord]

/-- The word of an instruction decodes to it: types 8, E and F by their own decoders, the others by the word's fields. -/
theorem decodeWord_encode (i : Instr) : decodeWord (encode i) = some i := by
  cases i
  case cls | ret => rfl
  case ldVxVy | orVxVy | andVxVy | xorVxVy | addVxVy | subVxVy | shrVx | subnVxVy | shlVx =>
    exact decodeWord_packXYN_type8 _ _ _
  case skpVx | sknpVx => exact decodeWord_packXNN_typeE _ _
  case ldVxDt | ldVxK | ldDtVx | ldStVx | addIVx | ldFVx | ldBVx | ldMemIVx | ldVxMemI =>
    exact decodeWord_packXNN_typeF _ _
  all_goals simp [encode, decodeWord]

/-- Decoding the two bytes of a word that decodes leaves the bytes after them. -/
theorem decode_bytes_of_decodeWord {w : Word} {i : Instr} (h : decodeWord w = some i) (rest : List Byte) :
    decode (w.extractLsb' 8 8 :: w.extractLsb' 0 8 :: rest) = .instr i rest := by
  simp [decode, wordOfBytes_split, h]

/-- Settles O1: the word by the packed fields, the bytes because the two halves of a word form it again. -/
theorem decodeOfEncodeIsIdentity : Obligations.DecodeOfEncodeIsIdentity :=
  fun i => ⟨decodeWord_encode i, decode_bytes_of_decodeWord (decodeWord_encode i)⟩

/-- Settles O2, by the arms of the decoder, each of which reads every field its instruction packs. -/
theorem encodeOfDecodeIsIdentity : Obligations.EncodeOfDecodeIsIdentity := fun _ _ => encode_of_decodeWord

/-! ### The rejected words as the illegal ones (rule R66) -/

theorem decodeType0_eq_none_iff {w : Word} : decodeType0 w = none ↔ ¬ (w.toNat = 0x00E0 ∨ w.toNat = 0x00EE) := by
  unfold decodeType0
  split
  case h_3 => simp [← BitVec.toNat_inj] at *; omega
  all_goals simp

theorem decodeType8_eq_none_iff {x y : RegIx} {n : Nibble} :
    decodeType8 x y n = none ↔ n.toNat ∈ [0x8, 0x9, 0xA, 0xB, 0xC, 0xD, 0xF] := by
  unfold decodeType8
  split
  case h_10 => simp [← BitVec.toNat_inj] at *; omega
  all_goals simp

theorem decodeTypeE_eq_none_iff {x : RegIx} {nn : Byte} : decodeTypeE x nn = none ↔ nn.toNat ∉ [0x9E, 0xA1] := by
  unfold decodeTypeE
  split
  case h_3 => simp [← BitVec.toNat_inj] at *; omega
  all_goals simp

theorem decodeTypeF_eq_none_iff {x : RegIx} {nn : Byte} :
    decodeTypeF x nn = none ↔ nn.toNat ∉ [0x07, 0x0A, 0x15, 0x18, 0x1E, 0x29, 0x33, 0x55, 0x65] := by
  unfold decodeTypeF
  split
  case h_10 => simp [← BitVec.toNat_inj] at *; omega
  all_goals simp

/-- The decoder rejects the illegal words: type 0 as a whole word, types 5, 8 and 9 by `N`, types E and F by `NN`. -/
theorem decodeWord_eq_none_iff {w : Word} : decodeWord w = none ↔ legalWord w = false := by
  have ht := fieldType_toNat w
  unfold decodeWord
  split <;> rename_i htype
  case h_17 => exfalso; simp [← BitVec.toNat_inj] at *; omega
  all_goals rw [htype] at ht
  case h_1 => simp [legalWord, ← ht, decodeType0_eq_none_iff]
  case h_6 | h_10 => simp [legalWord, ← ht, ← fieldN_toNat, ← BitVec.toNat_inj]
  case h_9 => simp [legalWord, ← ht, ← fieldN_toNat, decodeType8_eq_none_iff, Decidable.or_iff_not_imp_left]
  case h_15 => simp [legalWord, ← ht, ← fieldNN_toNat, decodeTypeE_eq_none_iff]
  case h_16 => simp [legalWord, ← ht, ← fieldNN_toNat, decodeTypeF_eq_none_iff]
  all_goals simp [legalWord, ← ht]

/-! ### The rejected words as those no row holds (rule R65) -/

open Laws.Encoding in
/-- The family `Laws.Encoding` (rule R65), over all instructions. -/
theorem encoding_statement (i : Instr) : Laws.Encoding.Statement i :=
  match i with
  | .cls => cls | .ret => ret | .jpNnn nnn => jpNnn nnn | .callNnn nnn => callNnn nnn | .seVxNn x nn => seVxNn x nn
  | .sneVxNn x nn => sneVxNn x nn | .seVxVy x y => seVxVy x y | .ldVxNn x nn => ldVxNn x nn
  | .addVxNn x nn => addVxNn x nn | .ldVxVy x y => ldVxVy x y | .orVxVy x y => orVxVy x y
  | .andVxVy x y => andVxVy x y | .xorVxVy x y => xorVxVy x y | .addVxVy x y => addVxVy x y
  | .subVxVy x y => subVxVy x y | .shrVx x y => shrVx x y | .subnVxVy x y => subnVxVy x y | .shlVx x y => shlVx x y
  | .sneVxVy x y => sneVxVy x y | .ldINnn nnn => ldINnn nnn | .jpV0Nnn nnn => jpV0Nnn nnn
  | .rndVxNn x nn => rndVxNn x nn | .drwVxVyN x y n => drwVxVyN x y n | .skpVx x => skpVx x | .sknpVx x => sknpVx x
  | .ldVxDt x => ldVxDt x | .ldVxK x => ldVxK x | .ldDtVx x => ldDtVx x | .ldStVx x => ldStVx x
  | .addIVx x => addIVx x | .ldFVx x => ldFVx x | .ldBVx x => ldBVx x | .ldMemIVx x => ldMemIVx x
  | .ldVxMemI x => ldVxMemI x

theorem exists_row_holds_encode (i : Instr) : ∃ row ∈ opcodeTable, row.holds (encode i) = true := by
  obtain ⟨row, hmem, -, hholds⟩ := encoding_statement i
  exact ⟨row, hmem, hholds⟩

theorem fieldType_and (w m : Word) : fieldType (w &&& m) = fieldType w &&& fieldType m := BitVec.extractLsb'_and
theorem fieldN_and (w m : Word) : fieldN (w &&& m) = fieldN w &&& fieldN m := BitVec.extractLsb'_and
theorem fieldNN_and (w m : Word) : fieldNN (w &&& m) = fieldNN w &&& fieldNN m := BitVec.extractLsb'_and

theorem legalWord_congr_n {w v : Word} (ht : fieldType v = fieldType w) (hn : fieldN v = fieldN w)
    (h : fieldType w ∈ [0x5, 0x8, 0x9]) : legalWord v = legalWord w := by
  simp only [List.mem_cons, List.not_mem_nil, or_false] at h
  obtain h | h | h := h <;> simp [legalWord, ← fieldType_toNat, ← fieldN_toNat, ht, hn, h]

theorem legalWord_congr_nn {w v : Word} (ht : fieldType v = fieldType w) (hnn : fieldNN v = fieldNN w)
    (h : fieldType w ∈ [0xE, 0xF]) : legalWord v = legalWord w := by
  simp only [List.mem_cons, List.not_mem_nil, or_false] at h
  obtain h | h := h <;> simp [legalWord, ← fieldType_toNat, ← fieldNN_toNat, ht, hnn, h]

theorem legalWord_of_fieldType {w : Word} (h : fieldType w ∉ [0x0, 0x5, 0x8, 0x9, 0xE, 0xF]) : legalWord w = true := by
  simp [← BitVec.toNat_inj] at h
  simp [legalWord, ← fieldType_toNat, h]

/-- The mask keeps every bit on which rule R66 decides for a word of the type: the word, `N`, `NN`, or the type alone. -/
def MaskDecides (mask : Word) (type : Nibble) : Prop :=
  mask = 0xFFFF ∨ (mask = 0xF00F ∧ type ∈ [0x5, 0x8, 0x9]) ∨ (mask = 0xF0FF ∧ type ∈ [0xE, 0xF]) ∨
    (mask = 0xF000 ∧ type ∉ [0x0, 0x5, 0x8, 0x9, 0xE, 0xF])

theorem MaskDecides.fieldType_and {w mask : Word} {type : Nibble} (h : MaskDecides mask type) :
    fieldType (w &&& mask) = fieldType w := by
  have hmask : fieldType mask = 0xF := by obtain rfl | ⟨rfl, -⟩ | ⟨rfl, -⟩ | ⟨rfl, -⟩ := h <;> rfl
  rw [Sys2Proof.fieldType_and, hmask]
  exact BitVec.and_allOnes

theorem MaskDecides.legalWord_and {w mask : Word} (h : MaskDecides mask (fieldType (w &&& mask))) :
    legalWord (w &&& mask) = legalWord w := by
  have ht := h.fieldType_and (w := w)
  rw [ht] at h
  obtain rfl | ⟨rfl, htype⟩ | ⟨rfl, htype⟩ | ⟨rfl, htype⟩ := h
  · exact congrArg legalWord BitVec.and_allOnes
  · exact legalWord_congr_n ht ((fieldN_and w _).trans BitVec.and_allOnes) htype
  · exact legalWord_congr_nn ht ((fieldNN_and w _).trans BitVec.and_allOnes) htype
  · rw [legalWord_of_fieldType htype, legalWord_of_fieldType (ht ▸ htype)]

/-- The masks of spec/opcode_table.json, and that no row asks for an illegal word. -/
theorem opcodeTable_masks :
    ∀ row ∈ opcodeTable, MaskDecides row.mask (fieldType row.value) ∧ legalWord row.value = true := by
  unfold MaskDecides
  decide

theorem legalWord_of_holds {row : OpcodeRow} {w : Word} (hrow : row ∈ opcodeTable) (h : row.holds w = true) :
    legalWord w = true := by
  obtain ⟨hmask, hlegal⟩ := opcodeTable_masks row hrow
  rw [← eq_of_beq h] at hmask hlegal
  exact hmask.legalWord_and.symm.trans hlegal

/-- Settles O3: a row holds the word of every instruction, and only legal words. -/
theorem rejectedWordsAreTheIllegalOnes : Obligations.RejectedWordsAreTheIllegalOnes := by
  refine fun w => ⟨decodeWord_eq_none_iff, fun hnone row hrow => ?_, fun hrows => ?_⟩
  · have hillegal := Bool.eq_false_iff.mp (decodeWord_eq_none_iff.mp hnone)
    exact Bool.eq_false_iff.mpr fun hholds => hillegal (legalWord_of_holds hrow hholds)
  · refine Option.eq_none_iff_forall_ne_some.mpr fun i hd => ?_
    obtain ⟨row, hrow, hholds⟩ := exists_row_holds_encode i
    rw [encode_of_decodeWord hd] at hholds
    exact Bool.eq_false_iff.mp (hrows row hrow) hholds

/-! ### The step (rules R64, R162) -/

/-- Settles O7: the turn of the host leaves the fetch as it is, and the decoder rejects the word. -/
theorem illegalWordRaisesDecodeFault : Obligations.IllegalWordRaisesDecodeFault := by
  intro s w hr hfetch hw
  have hstep := cycle_of_decode_none (s := s.hostTurn) hfetch (decodeWord_eq_none_iff.mpr hw)
  exact ⟨_, (step_running hr).trans hstep, raise_faultsWith ..⟩

/-- Settles O4, by running the decoder on each word. -/
theorem listedWordsDecodeAsListed : Obligations.ListedWordsDecodeAsListed := by
  unfold Obligations.ListedWordsDecodeAsListed
  decide

/-- Settles O5: the fetch, after the turn of the host too, answers the word of the two bytes. -/
theorem stepRunsTheDecodedInstruction : Obligations.StepRunsTheDecodedInstruction := by
  intro s i hr hpc hd
  have hfetch : s.hostTurn.fetch s.hostTurn.pc = some _ := fetch_eq_some.mpr ⟨hpc, rfl⟩
  exact ⟨(step_running hr).trans (cycle_of_decode_some hfetch hd), rfl⟩

end Sys2Proof
end

/-! ## Control transfer: jump, call, return and offset jump -/

section
namespace Sys2Proof

open Sys2Proof.Machine

variable {s : State} {nnn : Imm12}

/-! ### Frames -/

/-- A jump in place of the advance changes the pc only. -/
theorem setPc_changesOnly (s : State) (target : Word) : ChangesOnly [.pc] [] s (s.advance.setPc target) := by
  constructor <;> simp

theorem push_setPc_changesOnly (s : State) (value target : Word) :
    ChangesOnly [.pc, .stack] [] s ((s.advance.push value).setPc target) := by
  constructor <;> simp

theorem dropTop_setPc_changesOnly (s : State) (target : Word) :
    ChangesOnly [.pc, .stack] [] s (s.advance.dropTop.setPc target) := by
  constructor <;> simp

theorem halt_changesOnly (s : State) : ChangesOnly [.status] [] s s.halt := by
  constructor <;> simp

/-! ### Jump (rules R82, R167) -/

/-- The meaning compares addresses as words, the statement as numbers. -/
theorem immAddr_eq_iff {p : Word} : immAddr nnn = p ↔ nnn.toNat = p.toNat := by
  rw [← BitVec.toNat_inj, immAddr_toNat]

/-- A self-jump takes the advance back, so that the halt is all that it does (decision D6). -/
theorem exec_jpNnn_of_self (h : nnn.toNat = s.pc.toNat) : exec (.jpNnn nnn) s = .next s.halt := by
  have hself : immAddr nnn = s.pc := immAddr_eq_iff.mpr h
  simp [exec, execJpNnn, hself, State.advance, State.setPc]

theorem exec_jpNnn_of_ne (h : nnn.toNat ≠ s.pc.toNat) :
    exec (.jpNnn nnn) s = .next (s.advance.setPc (immAddr nnn)) := by
  have hne : immAddr nnn ≠ s.pc := fun e => h (immAddr_eq_iff.mp e)
  simp [exec, execJpNnn, hne]

/-- Settles O22, by whether the target is the jump's own address. -/
theorem jumpGoesToTargetOrHalts : Obligations.JumpGoesToTargetOrHalts := by
  intro nnn s
  by_cases h : nnn.toNat = s.pc.toNat
  · refine ⟨s.halt, exec_jpNnn_of_self h, h.symm, ?_⟩
    rw [if_pos h]
    exact ⟨rfl, halt_changesOnly s⟩
  · refine ⟨_, exec_jpNnn_of_ne h, immAddr_toNat nnn, ?_⟩
    rw [if_neg h]
    exact setPc_changesOnly s _

/-! ### Call (rules R83, R166) -/

theorem exec_callNnn_of_room (h : s.cfg.stackDepth ≠ some s.stack.length) :
    exec (.callNnn nnn) s = .next ((s.advance.push (s.pc + 2)).setPc (immAddr nnn)) := by
  simp [exec, execCallNnn, h]

theorem exec_callNnn_of_full (h : s.cfg.stackDepth = some s.stack.length) :
    exec (.callNnn nnn) s = .next (s.raise .stackOverflow (some (encode (.callNnn nnn)))) := by
  simp [exec, execCallNnn, h]

/-- Settles O23, by whether the stack has room. -/
theorem callPushesReturnAddressOrOverflows : Obligations.CallPushesReturnAddressOrOverflows := by
  refine fun nnn s => ⟨fun hroom => ?_, fun hfull => ?_⟩
  · exact ⟨_, exec_callNnn_of_room hroom, rfl, immAddr_toNat nnn, push_setPc_changesOnly ..⟩
  · exact ⟨_, exec_callNnn_of_full hfull, raise_faultsWith ..⟩

/-! ### Return (rules R81, R165) -/

theorem exec_ret_of_not_pops (h : s.cfg.retPops = false) : exec .ret s = .next s.advance := by
  simp [exec, execRet, h]

theorem exec_ret_of_pops {top : Word} {rest : List Word} (h : s.cfg.retPops = true) (hs : s.stack = top :: rest) :
    exec .ret s = .next (s.advance.dropTop.setPc top) := by
  simp [exec, execRet, h, hs]

theorem exec_ret_of_empty (h : s.cfg.retPops = true) (hs : s.stack = []) :
    exec .ret s = .next (s.raise .stackUnderflow (some (encode .ret))) := by
  simp [exec, execRet, h, hs]

/-- Settles O24, by `RET_POPS` and the stack. -/
theorem returnAdvancesPopsOrUnderflows : Obligations.ReturnAdvancesPopsOrUnderflows := by
  refine fun s => ⟨fun hkeeps => ?_, fun top rest hpops hstack => ?_, fun hpops hempty => ?_⟩
  · exact ⟨_, exec_ret_of_not_pops hkeeps, rfl, advance_changesOnly s⟩
  · exact ⟨_, exec_ret_of_pops hpops hstack, rfl, congrArg List.tail hstack, dropTop_setPc_changesOnly s top⟩
  · exact ⟨_, exec_ret_of_empty hpops hempty, raise_faultsWith ..⟩

/-! ### Offset jump (rules R84, R163) -/

/-- BNNN has no branch: a sum equal to its own address is a jump like any other. -/
theorem exec_jpV0Nnn (nnn : Imm12) (s : State) :
    exec (.jpV0Nnn nnn) s = .next (s.advance.setPc (offsetTarget nnn (s.getReg 0x0))) := rfl

/-- Settles O25: the target is the pc of the next step, which fetches nothing above 0xFFE (decision D5). -/
theorem offsetJumpAddsV0 : Obligations.OffsetJumpAddsV0 := by
  intro nnn s
  obtain ⟨-, hbounds⟩ := fetchIsBigEndianAndBounded
  have htarget := offsetTarget_toNat nnn (s.getReg 0x0)
  refine ⟨_, exec_jpV0Nnn nnn s, htarget, setPc_changesOnly .., fun hr hbeyond => ?_⟩
  exact hbounds _ hr (Nat.lt_of_lt_of_eq hbeyond htarget.symm)

end Sys2Proof
end

/-! ## Skips on register values -/

section
namespace Sys2Proof

open Sys2Proof.Machine

/-! ### The pc after a skip (rule R90) -/

/-- The skip's 2 comes on top of the advance's. -/
theorem skipIf_pc_of_iff {c : Bool} {p : Prop} [Decidable p] (s : State) (h : c = true ↔ p) :
    (s.advance.skipIf c).pc = if p then s.pc + 4 else s.pc + 2 := by
  by_cases hp : p
  · rw [if_pos hp, h.mpr hp]
    exact BitVec.add_assoc s.pc 2 2
  · rw [if_neg hp, Bool.eq_false_iff.mpr fun hc => hp (h.mp hc)]
    rfl

theorem skipIf_not_pc_of_iff {c : Bool} {p : Prop} [Decidable p] (s : State) (h : c = true ↔ p) :
    (s.advance.skipIf (!c)).pc = if p then s.pc + 2 else s.pc + 4 := by
  have hnot : (!c) = true ↔ ¬ p := by simp [← h]
  exact (skipIf_pc_of_iff s hnot).trans (ite_not ..)

/-! ### The conditions (rules R91 to R94) -/

/-- The meaning compares bytes, the statement the numbers they stand for. -/
theorem beq_iff_toNat_eq {a b : Byte} : (a == b) = true ↔ a.toNat = b.toNat :=
  beq_iff_eq.trans BitVec.toNat_inj.symm

/-- A register equals itself, so the comparison of the values covers the case of one register named twice. -/
theorem getReg_beq_iff {x y : RegIx} {s : State} :
    (s.getReg x == s.getReg y) = true ↔ x = y ∨ (s.getReg x).toNat = (s.getReg y).toNat := by
  have hsame : x = y → (s.getReg x).toNat = (s.getReg y).toNat := by rintro rfl; rfl
  exact beq_iff_toNat_eq.trans (or_iff_right_of_imp hsame).symm

/-! ### The meanings, each inequality as the negated equality -/

theorem exec_seVxNn (x : RegIx) (nn : Byte) (s : State) :
    exec (.seVxNn x nn) s = .next (s.advance.skipIf (s.getReg x == nn)) := rfl

theorem exec_sneVxNn (x : RegIx) (nn : Byte) (s : State) :
    exec (.sneVxNn x nn) s = .next (s.advance.skipIf (!(s.getReg x == nn))) := rfl

theorem exec_seVxVy (x y : RegIx) (s : State) :
    exec (.seVxVy x y) s = .next (s.advance.skipIf (s.getReg x == s.getReg y)) := rfl

theorem exec_sneVxVy (x y : RegIx) (s : State) :
    exec (.sneVxVy x y) s = .next (s.advance.skipIf (!(s.getReg x == s.getReg y))) := rfl

/-- Settles O26: one condition, the equality of the two bytes, serves both instructions. -/
theorem immediateSkips : Obligations.ImmediateSkips := by
  refine fun x nn s => ⟨?_, ?_⟩
  · exact ⟨_, exec_seVxNn x nn s, skipIf_pc_of_iff s beq_iff_toNat_eq, skipIf_changesOnly s _⟩
  · exact ⟨_, exec_sneVxNn x nn s, skipIf_not_pc_of_iff s beq_iff_toNat_eq, skipIf_changesOnly s _⟩

/-- Settles O27: as O26, with the case of one register named twice in the condition. -/
theorem registerSkips : Obligations.RegisterSkips := by
  refine fun x y s => ⟨?_, ?_⟩
  · exact ⟨_, exec_seVxVy x y s, skipIf_pc_of_iff s getReg_beq_iff, skipIf_changesOnly s _⟩
  · exact ⟨_, exec_sneVxVy x y s, skipIf_not_pc_of_iff s getReg_beq_iff, skipIf_changesOnly s _⟩

end Sys2Proof
end

/-! ## Registers: loads, arithmetic, logic, shifts and the random byte -/

section
namespace Sys2Proof

open Sys2Proof.Machine

/-! ### The meanings, each by the one write it ends with (rule R101) -/

theorem exec_ldVxNn (x : RegIx) (nn : Byte) (s : State) : exec (.ldVxNn x nn) s = .next (s.advance.setReg x nn) := rfl

theorem exec_ldVxVy (x y : RegIx) (s : State) :
    exec (.ldVxVy x y) s = .next (s.advance.setReg x (s.getReg y)) := rfl

theorem exec_addVxNn (x : RegIx) (nn : Byte) (s : State) :
    exec (.addVxNn x nn) s = .next (s.advance.setReg x (s.getReg x + nn)) := rfl

theorem exec_orVxVy (x y : RegIx) (s : State) :
    exec (.orVxVy x y) s = .next (s.advance.setReg x (s.getReg x ||| s.getReg y)) := rfl

theorem exec_andVxVy (x y : RegIx) (s : State) :
    exec (.andVxVy x y) s = .next (s.advance.setReg x (s.getReg x &&& s.getReg y)) := rfl

theorem exec_xorVxVy (x y : RegIx) (s : State) :
    exec (.xorVxVy x y) s = .next (s.advance.setReg x (s.getReg x ^^^ s.getReg y)) := rfl

theorem exec_addVxVy (x y : RegIx) (s : State) :
    exec (.addVxVy x y) s = .next
      (s.advance.setResultThenFlag x (s.getReg x + s.getReg y) (carryOut (s.getReg x) (s.getReg y))) := rfl

theorem exec_subVxVy (x y : RegIx) (s : State) :
    exec (.subVxVy x y) s = .next
      (s.advance.setResultThenFlag x (s.getReg x - s.getReg y) (noBorrow (s.getReg x) (s.getReg y))) := rfl

theorem exec_subnVxVy (x y : RegIx) (s : State) :
    exec (.subnVxVy x y) s = .next
      (s.advance.setResultThenFlag x (s.getReg y - s.getReg x) (noBorrow (s.getReg y) (s.getReg x))) := rfl

theorem exec_shrVx (x y : RegIx) (s : State) :
    exec (.shrVx x y) s = .next (s.advance.setResultThenFlag x (s.getReg x >>> 1) (lowBit (s.getReg x))) := rfl

theorem exec_shlVx (x y : RegIx) (s : State) :
    exec (.shlVx x y) s = .next (s.advance.setResultThenFlag x (s.getReg x <<< 1) (highBit (s.getReg x))) := rfl

theorem exec_rndVxNn (x : RegIx) (nn : Byte) (s : State) :
    exec (.rndVxNn x nn) s = .next (s.advance.nextDraw.setReg x (Config.randByte s.draws &&& nn)) := rfl

/-! ### Results as numbers (rules R109 to R112) -/

/-- The difference of two bytes is the difference of the integers modulo 256. -/
theorem toNat_sub_emod (a b : Byte) : ((a - b).toNat : Int) = (a.toNat - b.toNat : Int) % 256 := by
  rw [BitVec.toNat_sub]
  omega

theorem toNat_shiftRight_one (a : Byte) : (a >>> 1).toNat = a.toNat / 2 := by
  rw [BitVec.toNat_ushiftRight, Nat.shiftRight_eq_div_pow, Nat.pow_one]

theorem toNat_shiftLeft_one (a : Byte) : (a <<< 1).toNat = 2 * a.toNat % 256 := by
  rw [BitVec.toNat_shiftLeft, Nat.shiftLeft_eq, Nat.mul_comm]

/-! ### Flags as numbers (rules R21, R100) -/

/-- A flag that is a comparison of integers. -/
theorem flagByte_decide (p : Prop) [Decidable p] : flagByte (decide p) = if p then 0x01 else 0x00 := by
  simp [flagByte]

theorem flagByte_carryOut (a b : Byte) : flagByte (carryOut a b) = if a.toNat + b.toNat > 255 then 0x01 else 0x00 :=
  flagByte_decide (255 < a.toNat + b.toNat)

theorem flagByte_noBorrow (a b : Byte) : flagByte (noBorrow a b) = if a.toNat ≥ b.toNat then 0x01 else 0x00 :=
  flagByte_decide (b.toNat ≤ a.toNat)

/-- A flag that is bit `k` of a byte. -/
theorem toNat_flagByte_getLsbD (a : Byte) (k : Nat) : (flagByte (a.getLsbD k)).toNat = a.toNat / 2 ^ k % 2 := by
  have hflag (flag : Bool) : (flagByte flag).toNat = flag.toNat := by cases flag <;> rfl
  rw [hflag]
  exact Nat.toNat_testBit a.toNat k

theorem toNat_flagByte_lowBit (a : Byte) : (flagByte (lowBit a)).toNat = a.toNat % 2 := by
  rw [lowBit, toNat_flagByte_getLsbD, Nat.pow_zero, Nat.div_one]

/-- Above bit 7 a byte has no other, so its quotient by 128 is that bit. -/
theorem toNat_flagByte_highBit (a : Byte) : (flagByte (highBit a)).toNat = a.toNat / 128 := by
  have hbyte : a.toNat < 256 := a.isLt
  rw [highBit, toNat_flagByte_getLsbD]
  omega

/-! ### One register written (rules R102 to R107, R113) -/

/-- Settles O28: each of the two is one register write. -/
theorem loadsWriteTheDestination : Obligations.LoadsWriteTheDestination := by
  refine fun x y nn s => ⟨?_, ?_⟩
  · exact ⟨_, exec_ldVxNn x nn s, State.setReg_getReg_self .., rfl, setReg_changesOnly ..⟩
  · exact ⟨_, exec_ldVxVy x y s, State.setReg_getReg_self .., rfl, setReg_changesOnly ..⟩

/-- Settles O29: the byte sum is the sum modulo 256, and X is the only register in the frame. -/
theorem addImmediateWrapsWithoutFlag : Obligations.AddImmediateWrapsWithoutFlag := by
  intro x nn s
  refine ⟨_, exec_addVxNn x nn s, ?_, rfl, setReg_changesOnly ..⟩
  rw [State.setReg_getReg_self]
  exact BitVec.toNat_add ..

/-- Settles O30: each of the three is one register write, of a byte whose bits the library gives. -/
theorem logicWorksBitByBit : Obligations.LogicWorksBitByBit := by
  refine fun x y s => ⟨?_, ?_, ?_⟩
  · refine ⟨_, exec_orVxVy x y s, rfl, setReg_changesOnly .., fun k _ => ?_⟩
    rw [State.setReg_getReg_self, BitVec.getLsbD_or]
  · refine ⟨_, exec_andVxVy x y s, rfl, setReg_changesOnly .., fun k _ => ?_⟩
    rw [State.setReg_getReg_self, BitVec.getLsbD_and]
  · refine ⟨_, exec_xorVxVy x y s, rfl, setReg_changesOnly .., fun k _ => ?_⟩
    rw [State.setReg_getReg_self, BitVec.getLsbD_xor]

/-- Settles O36, for every value of the draw: a byte under the mask has no bit outside it. -/
theorem randomByteIsMasked : Obligations.RandomByteIsMasked := by
  intro x nn s
  refine ⟨_, exec_rndVxNn x nn s, State.setReg_getReg_self .., ?_, rfl, rfl, setReg_nextDraw_changesOnly ..⟩
  rw [State.setReg_getReg_self, BitVec.and_assoc, BitVec.and_not_self]
  exact BitVec.and_zero

/-! ### The result, then the flag (rules R101, R108 to R112) -/

/-- What is true of the result is true of `V[X]`, unless the flag, written last, has replaced it there; what is true of the
flag byte is true of `VF`, whatever X is (decision D7). -/
theorem exists_next_of_resultThenFlag {P Q : Byte → Prop} {i : Instr} {x : RegIx} {s : State} {result : Byte} {flag : Bool}
    (h : exec i s = .next (s.advance.setResultThenFlag x result flag)) (hresult : P result) (hflag : Q (flagByte flag)) :
    ∃ t, exec i s = .next t ∧ (x ≠ 0xF → P (t.getReg x)) ∧ Q (t.getReg 0xF) ∧
      t.pc = s.pc + 2 ∧ ChangesOnly [.pc] [x, 0xF] s t := by
  refine ⟨_, h, fun hx => ?_, ?_, rfl, setResultThenFlag_changesOnly ..⟩
  · rwa [getReg_result _ hx]
  · rwa [getReg_flag]

/-- Settles O31: the byte sum is the sum modulo 256, the flag its carry. -/
theorem addWritesSumThenCarry : Obligations.AddWritesSumThenCarry := fun x y s =>
  exists_next_of_resultThenFlag (P := (BitVec.toNat · = _)) (Q := (· = _)) (exec_addVxVy x y s)
    (BitVec.toNat_add ..) (flagByte_carryOut ..)

/-- Settles O32: the byte difference is the difference modulo 256, the flag the complement of its borrow. -/
theorem subWritesDifferenceThenNoBorrow : Obligations.SubWritesDifferenceThenNoBorrow := fun x y s =>
  exists_next_of_resultThenFlag (P := fun v => (v.toNat : Int) = _) (Q := (· = _)) (exec_subVxVy x y s)
    (toNat_sub_emod ..) (flagByte_noBorrow ..)

/-- Settles O33: as O32, with minuend and subtrahend exchanged. -/
theorem subnWritesReverseDifferenceThenNoBorrow : Obligations.SubnWritesReverseDifferenceThenNoBorrow := fun x y s =>
  exists_next_of_resultThenFlag (P := fun v => (v.toNat : Int) = _) (Q := (· = _)) (exec_subnVxVy x y s)
    (toNat_sub_emod ..) (flagByte_noBorrow ..)

/-- Settles O34: a shift right by one is the half, the flag the bit it moves out. -/
theorem shrHalvesThenLowBit : Obligations.ShrHalvesThenLowBit := fun x y s =>
  exists_next_of_resultThenFlag (P := (BitVec.toNat · = _)) (Q := (BitVec.toNat · = _)) (exec_shrVx x y s)
    (toNat_shiftRight_one _) (toNat_flagByte_lowBit _)

/-- Settles O35: a shift left by one is the double modulo 256, the flag the bit it moves out. -/
theorem shlDoublesThenHighBit : Obligations.ShlDoublesThenHighBit := fun x y s =>
  exists_next_of_resultThenFlag (P := (BitVec.toNat · = _)) (Q := (BitVec.toNat · = _)) (exec_shlVx x y s)
    (toNat_shiftLeft_one _) (toNat_flagByte_highBit _)

end Sys2Proof
end

/-! ## Index register and memory -/

section
namespace Sys2Proof

open Sys2Proof.Machine

variable {s : State} {x : RegIx}

/-! ### Writes of `I` (rules R120 to R122) -/

theorem exec_ldINnn (nnn : Imm12) (s : State) : exec (.ldINnn nnn) s = .next (s.advance.setIdx (immAddr nnn)) := rfl

theorem exec_addIVx (x : RegIx) (s : State) :
    exec (.addIVx x) s = .next (s.advance.setIdx (indexSum s.idx (s.getReg x))) := rfl

theorem exec_ldFVx (x : RegIx) (s : State) : exec (.ldFVx x) s = .next (s.advance.setIdx (glyphAddr (s.getReg x))) := rfl

/-- The mask 0xFFF is the remainder by 4096, which the wrap of the word sum at 65536 does not change. -/
theorem indexSum_toNat (idx : Word) (vx : Byte) : (indexSum idx vx).toNat = (idx.toNat + vx.toNat) % 4096 := by
  have hvx : (vx.setWidth 16).toNat = vx.toNat := BitVec.toNat_setWidth_of_le (by decide)
  calc (indexSum idx vx).toNat
      = (idx + vx.setWidth 16).toNat &&& (2 ^ 12 - 1) := BitVec.toNat_and ..
    _ = (idx.toNat + vx.toNat) % 2 ^ 16 % 2 ^ 12 := by rw [Nat.and_two_pow_sub_one_eq_mod, BitVec.toNat_add, hvx]
    _ = (idx.toNat + vx.toNat) % 4096 := Nat.mod_mod_of_dvd _ (by decide)

/-- Settles O37: the 12 bits of the immediate stand in `I` as they are. -/
theorem indexLoadsImmediate : Obligations.IndexLoadsImmediate := fun nnn s =>
  ⟨_, exec_ldINnn nnn s, immAddr_toNat nnn, rfl, setIdx_changesOnly s _⟩

/-- Settles O38: a register holds at most 255, and 0x050 + 255 * 5 = 0x54B. -/
theorem glyphAddressUsesTheWholeRegister : Obligations.GlyphAddressUsesTheWholeRegister := by
  intro x s
  have haddr := glyphAddr_toNat (s.getReg x)
  have hbyte := (s.getReg x).isLt
  have hle : (glyphAddr (s.getReg x)).toNat ≤ 0x54B := by omega
  exact ⟨_, exec_ldFVx x s, haddr, hle, rfl, setIdx_changesOnly s _⟩

/-- Settles O39: the masked sum is the sum modulo 4096, and no register is in the frame (decision D26). -/
theorem indexAddWrapsAtTwelveBits : Obligations.IndexAddWrapsAtTwelveBits := fun x s =>
  ⟨_, exec_addIVx x s, indexSum_toNat .., rfl, setIdx_changesOnly s _⟩

/-! ### The range check that fails (rules R47, R164) -/

/-- From a base in memory, the lowest address out of range is the first one past its end. -/
theorem firstOutOfRange_eq_end {base : Word} {count : Nat} (hcount : 0 < count) (hlast : 0xFFF < base.toNat + count - 1)
    (hbase : base.toNat ≤ 0xFFF) : firstOutOfRange base count = some 0x1000 :=
  firstOutOfRange_eq_some.mpr ⟨hcount, hlast, by omega⟩

theorem exec_ldBVx_of_outOfRange {bad : Nat} (h : firstOutOfRange s.idx 3 = some bad) :
    exec (.ldBVx x) s = .next (s.raise (.memBounds bad) (some (encode (.ldBVx x)))) := by
  simp [exec, execLdBVx, h]

theorem exec_ldMemIVx_of_outOfRange {bad : Nat} (h : firstOutOfRange s.idx (regCount s.cfg x) = some bad) :
    exec (.ldMemIVx x) s = .next (s.raise (.memBounds bad) (some (encode (.ldMemIVx x)))) := by
  simp [exec, execLdMemIVx, h]

theorem exec_ldVxMemI_of_outOfRange {bad : Nat} (h : firstOutOfRange s.idx (regCount s.cfg x) = some bad) :
    exec (.ldVxMemI x) s = .next (s.raise (.memBounds bad) (some (encode (.ldVxMemI x)))) := by
  simp [exec, execLdVxMemI, h]

/-! ### Decimal digits (rule R123) -/

theorem exec_ldBVx_of_inRange (h : firstOutOfRange s.idx 3 = none) :
    exec (.ldBVx x) s = .next (s.advance.writeBytes s.idx.toNat (bcdDigits (s.getReg x))) := by
  simp [exec, execLdBVx, h]

@[simp] theorem bcdDigits_length (v : Byte) : (bcdDigits v).length = 3 := rfl

/-- The digits are numbers below 10, so that each fits the byte it is stored in. -/
theorem toNat_bcdDigits (v : Byte) :
    (bcdDigits v)[0].toNat = v.toNat / 100 ∧ (bcdDigits v)[1].toNat = v.toNat / 10 % 10 ∧
      (bcdDigits v)[2].toNat = v.toNat % 10 := by
  have hv := v.isLt
  refine ⟨?_, ?_, ?_⟩ <;> exact (BitVec.toNat_ofNat ..).trans (Nat.mod_eq_of_lt (by omega))

/-- Settles O40: in range the three digits are stored in a row from `I`; else the check comes before every write. -/
theorem bcdStoresThreeDigits : Obligations.BcdStoresThreeDigits := by
  refine fun x s => ⟨fun hlast => ?_, fun hlast hidx => ?_⟩
  · have hrange : firstOutOfRange s.idx 3 = none := firstOutOfRange_eq_none.mpr (.inr hlast)
    obtain ⟨hhundreds, htens, hones⟩ := toNat_bcdDigits (s.getReg x)
    have hstored {k : Nat} (hk : k < (bcdDigits (s.getReg x)).length) :=
      congrArg BitVec.toNat (readByte_writeBytes_add s.advance s.idx.toNat hk)
    refine ⟨_, exec_ldBVx_of_inRange hrange, (hstored _).trans hhundreds, (hstored _).trans htens, (hstored _).trans hones,
      fun a ha => ?_, State.writeBytes_pc .., writeBytes_changesOnly ..⟩
    exact readByte_writeBytes_outside s.advance (by rw [bcdDigits_length]; omega)
  · exact ⟨_, exec_ldBVx_of_outOfRange (firstOutOfRange_eq_end (by decide) hlast hidx), raise_faultsWith ..⟩

/-! ### Registers to memory and back (rules R124 to R126) -/

theorem exec_ldVxMemI_of_inRange (h : firstOutOfRange s.idx (regCount s.cfg x) = none) :
    exec (.ldVxMemI x) s = .next (s.advance.loadRegs s.idx.toNat (regCount s.cfg x)) := by
  simp [exec, execLdVxMemI, h]

/-- Settles O41: the statement's count is the model's, whichever the setting; with none to move the check passes. -/
theorem storeRegistersAscending : Obligations.StoreRegistersAscending := by
  intro x s count hcount
  obtain rfl : count = regCount s.cfg x := hcount
  refine ⟨fun hlast => ?_, fun hpos hlast hidx => ?_⟩
  · refine ⟨_, exec_ldMemIVx_of_inRange (firstOutOfRange_eq_none.mpr hlast), fun r hr => ?_, fun a ha => ?_,
      State.writeBytes_pc .., writeBytes_changesOnly ..⟩
    · rw [readByte_store s hr, BitVec.ofNat_toNat, BitVec.setWidth_eq]
    · exact readByte_writeBytes_outside s.advance (by rwa [State.lowRegs_length])
  · exact ⟨_, exec_ldMemIVx_of_outOfRange (firstOutOfRange_eq_end hpos hlast hidx), raise_faultsWith ..⟩

/-- Settles O42: as O41, with the registers the instruction names as its destinations in the frame. -/
theorem loadRegistersAscending : Obligations.LoadRegistersAscending := by
  intro x s count hcount
  obtain rfl : count = regCount s.cfg x := hcount
  have hmax := regCount_le s.cfg x
  refine ⟨fun hlast => ?_, fun hpos hlast hidx => ?_⟩
  · exact ⟨_, exec_ldVxMemI_of_inRange (firstOutOfRange_eq_none.mpr hlast), State.getReg_loadRegs _ hmax s.advance _,
      State.loadRegs_pc .., loadRegs_changesOnly s _ hmax⟩
  · exact ⟨_, exec_ldVxMemI_of_outOfRange (firstOutOfRange_eq_end hpos hlast hidx), raise_faultsWith ..⟩

end Sys2Proof
end

/-! ## Framebuffer, clear and draw -/

section
namespace Sys2Proof

open Sys2Proof.Machine

/-! ### Pixels as bits of the framebuffer (rule R131) -/

/-- Every bit of the framebuffer is a pixel's: byte `k` holds columns `8 * (k % 8)` to `8 * (k % 8) + 7` of row `k / 8`. -/
theorem exists_pixel (k : Fin 256) (b : Fin 8) : ∃ (x : Fin 64) (y : Fin 32), pixelByte x y = k ∧ pixelBit x = b.val := by
  refine ⟨⟨8 * (k.val % 8) + (7 - b.val), by omega⟩, ⟨k.val / 8, by omega⟩, Fin.ext ?_, ?_⟩
  · simp only [pixelByte]; omega
  · simp only [pixelBit]; omega

theorem pixelMask_toNat (x : Fin 64) : (pixelMask x).toNat = 2 ^ (7 - x.val % 8) := by
  have hlt : 2 ^ pixelBit x < 2 ^ 8 := Nat.pow_lt_pow_right (by decide) (pixelBit_lt x)
  rw [pixelMask, BitVec.toNat_shiftLeft, Nat.shiftLeft_eq, BitVec.toNat_ofNat, Nat.mod_eq_of_lt (by omega : 1 < 2 ^ 8),
    Nat.one_mul, Nat.mod_eq_of_lt hlt, pixelBit]

/-- Two framebuffers with the same pixels are equal. -/
theorem framebuffer_ext {fb fb' : Framebuffer} (h : ∀ x y, fbGet fb x y = fbGet fb' x y) : fb = fb' := by
  refine Vector.ext fun k hk => BitVec.eq_of_getLsbD_eq fun b hb => ?_
  obtain ⟨x, y, hbyte, hbit⟩ := exists_pixel ⟨k, hk⟩ ⟨b, hb⟩
  simpa [fbGet, hbyte, hbit] using h x y

/-- Settles O44: two pixels of one byte and bit are one pixel, and every bit of the framebuffer is some pixel's. -/
theorem pixelAddressingIsBijective : Obligations.PixelAddressingIsBijective :=
  ⟨fun x _ => ⟨rfl, rfl, pixelMask_toNat x⟩, fun _ _ _ _ => pixel_ext, exists_pixel⟩

/-! ### The laws of the engine (rule R140) -/

theorem fbXor_outside (fb : Framebuffer) {px py : Nat} (b : Bool) (h : 64 ≤ px ∨ 32 ≤ py) :
    fbXor fb px py b = (fb, false) :=
  dif_neg (by omega)

/-- What `fbXor` does to every pixel (rules R134, R135): what the compositor does with one sprite bit. -/
theorem fbGet_fbXor (fb : Framebuffer) (px py : Nat) (b : Bool) (x : Fin 64) (y : Fin 32) :
    fbGet (fbXor fb px py b).1 x y = if x.val = px ∧ y.val = py then fbGet fb x y ^^ b else fbGet fb x y := by
  have hbit : (fbXor fb px py b).1 = (drawBit (fb, false) px py b).1 := by
    unfold drawBit
    split
    · rfl
    · rw [fbXor_outside fb b (by omega)]
  rw [hbit, fbGet_drawBit]

/-- Settles O45: laws (a) and (b) by what `fbSet` does to every pixel, (c) and (d) by what `fbXor` does. -/
theorem engineLaws : Obligations.EngineLaws := by
  refine ⟨fun fb x y v => ?_, fun fb x y v x' y' hne => ?_, fun fb px py b _ _ => ?_, fun fb px py => ?_,
    fun fb _ _ b => fbXor_outside fb b⟩
  · rw [fbGet_fbSet, if_pos ⟨rfl, rfl⟩]
  · rw [fbGet_fbSet, if_neg fun ⟨hx, hy⟩ => hne (Prod.ext hx hy)]
  · refine framebuffer_ext fun x y => ?_
    rw [fbGet_fbXor, fbGet_fbXor]
    split
    · rw [Bool.xor_assoc, Bool.xor_self, Bool.xor_false]
    · rfl
  · refine framebuffer_ext fun x y => ?_
    rw [fbGet_fbXor, Bool.xor_false, ite_self]

/-! ### Clear (rule R136) -/

/-- Settles O46, by the setting of `CLS_CLEARS`. -/
theorem clearZeroesOrOnlyAdvances : Obligations.ClearZeroesOrOnlyAdvances := by
  intro s
  split
  next hclears =>
    have hexec := exec_cls_of_clears hclears
    exact ⟨_, hexec, rfl, fun k => Vector.getElem_replicate k.isLt, exec_changesOnly hexec⟩
  next hkeeps => exact ⟨_, exec_cls_of_not_clears (Bool.eq_false_iff.mpr hkeeps), rfl, advance_changesOnly s⟩

/-! ### A draw (rules R137 to R139) -/

variable {s : State} {x y : RegIx} {n : Nibble}

/-- The picture and the collision flag a draw leaves. -/
def spriteDrawn (x y : RegIx) (n : Nibble) (s : State) : Framebuffer × Bool :=
  drawSprite s.fb (startColumn (s.getReg x)) (startRow (s.getReg y)) (s.readBytes s.idx.toNat n.toNat)

/-- The state after a draw whose sprite lies in memory. -/
def drawnState (x y : RegIx) (n : Nibble) (s : State) : State :=
  ((s.advance.setFb (spriteDrawn x y n s).1).setFlag (spriteDrawn x y n s).2).emitFrame

/-- The sprite bit of the draw `DXYN` that falls on a pixel. -/
def drawnBit (x y : RegIx) (n : Nibble) (s : State) (px : Fin 64) (py : Fin 32) : Bool :=
  spriteBit s (startColumn (s.getReg x)) (startRow (s.getReg y)) n.toNat px py

theorem exec_drwVxVyN_of_inRange (h : firstOutOfRange s.idx n.toNat = none) :
    exec (.drwVxVyN x y n) s = .next (drawnState x y n s) := by
  simp [exec, execDrwVxVyN, h, drawnState, spriteDrawn]

theorem exec_drwVxVyN_of_outOfRange {bad : Nat} (h : firstOutOfRange s.idx n.toNat = some bad) :
    exec (.drwVxVyN x y n) s = .next (s.raise (.memBounds bad) (some (encode (.drwVxVyN x y n)))) := by
  simp [exec, execDrwVxVyN, h]

/-- The bit of the rows read from memory at `I` is the sprite bit the statements speak of. -/
theorem rowsBit_readBytes (s : State) (x0 y0 count px py : Nat) :
    rowsBit (s.readBytes s.idx.toNat count) x0 y0 px py = spriteBit s x0 y0 count px py := by
  unfold rowsBit spriteBit
  by_cases hrow : py - y0 < count
  · have hin : (x0 ≤ px ∧ px < x0 + 8 ∧ y0 ≤ py) ↔ (x0 ≤ px ∧ px < x0 + 8 ∧ y0 ≤ py ∧ py < y0 + count) := by omega
    simp [hin, hrow]
  · have hout : ¬ (x0 ≤ px ∧ px < x0 + 8 ∧ y0 ≤ py ∧ py < y0 + count) := by omega
    simp [hout, hrow]

/-- A draw XORs every pixel with the sprite bit that falls on it (rule R138). -/
theorem fbGet_drawnState (px : Fin 64) (py : Fin 32) :
    fbGet (drawnState x y n s).fb px py = (fbGet s.fb px py ^^ drawnBit x y n s px py) :=
  (fbGet_drawRows ..).trans (by rw [rowsBit_readBytes, drawnBit])

/-- The collision flag of a draw: a sprite bit of 1 fell on a pixel that was on (rule R137). -/
theorem spriteDrawn_collides :
    (spriteDrawn x y n s).2 = true ↔ ∃ px py, drawnBit x y n s px py = true ∧ fbGet s.fb px py = true :=
  (drawRows_collides ..).trans (by simp [rowsBit_readBytes, drawnBit])

theorem getReg_flag_drawnState (x y : RegIx) (n : Nibble) (s : State) :
    (drawnState x y n s).getReg 0xF = flagByte (spriteDrawn x y n s).2 :=
  getReg_setFlag_flagReg ..

theorem drawnState_changesOnly (x y : RegIx) (n : Nibble) (s : State) :
    ChangesOnly [.pc, .fb, .frames] [0xF] s (drawnState x y n s) :=
  draw_changesOnly ..

/-- Settles O47: the draw ends in `drawnState`, and the two flag clauses are the two values of the collision flag. -/
theorem drawXorsPixelsAndFlagsCollision : Obligations.DrawXorsPixelsAndFlagsCollision := by
  rintro x y n s _ _ rfl rfl hlast
  have hflag := getReg_flag_drawnState x y n s
  refine ⟨_, exec_drwVxVyN_of_inRange (firstOutOfRange_eq_none.mpr hlast), fbGet_drawnState, fun hcollides => ?_,
    fun hclear => ?_, rfl, rfl, drawnState_changesOnly x y n s⟩
  · exact hflag.trans (congrArg flagByte (spriteDrawn_collides.mpr hcollides))
  · have hnone : (spriteDrawn x y n s).2 = false := by
      refine Bool.eq_false_iff.mpr fun hcollides => ?_
      obtain ⟨px, py, hbit, hon⟩ := spriteDrawn_collides.mp hcollides
      exact absurd ((hclear px py hbit).symm.trans hon) Bool.false_ne_true
    exact hflag.trans (congrArg flagByte hnone)

/-- Settles O48: the range check comes before every write. -/
theorem drawOutsideMemoryFaults : Obligations.DrawOutsideMemoryFaults := fun _ _ _ _ hpos hlast hidx =>
  ⟨_, exec_drwVxVyN_of_outOfRange (firstOutOfRange_eq_end hpos hlast hidx), raise_faultsWith ..⟩

/-! ### The same draw twice (rule R138) -/

theorem flagByte_eq_one_iff {flag : Bool} : flagByte flag = 0x01 ↔ flag = true := by cases flag <;> decide

/-- A draw leaves the sprite of the same draw as it was: position registers other than `VF`, `I` and memory. -/
theorem drawnBit_drawnState (hx : x ≠ 0xF) (hy : y ≠ 0xF) (s : State) :
    drawnBit x y n (drawnState x y n s) = drawnBit x y n s := by
  have hframe := drawnState_changesOnly x y n s
  have hcolumn := hframe.regs x (by simpa using hx)
  have hrow := hframe.regs y (by simpa using hy)
  funext px py
  simp only [drawnBit, spriteBit, hcolumn, hrow, hframe.idx (by simp), hframe.mem (by simp)]

/-- Settles O49: the second draw XORs the same bits again, and collides where the first left a pixel on. -/
theorem drawingTwiceRestores : Obligations.DrawingTwiceRestores := by
  rintro x y n s _ _ hx hy rfl rfl hlast
  have hrange : firstOutOfRange s.idx n.toNat = none := firstOutOfRange_eq_none.mpr hlast
  have hbit := drawnBit_drawnState (n := n) hx hy s
  refine ⟨_, _, exec_drwVxVyN_of_inRange hrange, exec_drwVxVyN_of_inRange hrange, framebuffer_ext fun px py => ?_, ?_⟩
  · rw [fbGet_drawnState, fbGet_drawnState, hbit, Bool.xor_assoc, Bool.xor_self, Bool.xor_false]
  · rw [getReg_flag_drawnState, flagByte_eq_one_iff, spriteDrawn_collides, hbit]
    refine exists_congr fun px => exists_congr fun py => and_congr_right fun hone => ?_
    rw [fbGet_drawnState, hone, Bool.xor_true, Bool.not_eq_true']

end Sys2Proof
end

/-! ## Keys and timer -/

section
namespace Sys2Proof

open Sys2Proof.Machine

variable {s : State} {x : RegIx}

/-! ### Key skips (rules R151, R152) -/

/-- Use of the answer and advance commute; with the advance last the pc of the skips (rule R90) applies. -/
theorem exec_skpVx (x : RegIx) (s : State) :
    exec (.skpVx x) s = .next (s.nextDraw.advance.skipIf (Config.keyHeld s.draws (s.getReg x))) := rfl

theorem exec_sknpVx (x : RegIx) (s : State) :
    exec (.sknpVx x) s = .next (s.nextDraw.advance.skipIf (!Config.keyHeld s.draws (s.getReg x))) := rfl

/-- Settles O50, for every answer: one condition, that the key `V[X]` is held, serves both instructions. -/
theorem keySkips : Obligations.KeySkips := by
  refine fun x s => ⟨?_, ?_⟩
  · have hexec := exec_skpVx x s
    exact ⟨_, hexec, rfl, exec_changesOnly hexec, skipIf_pc_of_iff s.nextDraw Iff.rfl⟩
  · have hexec := exec_sknpVx x s
    exact ⟨_, hexec, rfl, exec_changesOnly hexec, skipIf_not_pc_of_iff s.nextDraw Iff.rfl⟩

/-! ### Key wait (rule R153) -/

theorem nextDraw_changesOnly (s : State) : ChangesOnly [.draws] [] s s.nextDraw := by
  constructor <;> simp

/-- With no key held the rewind takes the advance back, so that the answer used is all that changes. -/
theorem exec_ldVxK_of_none (h : Config.keyCurrent s.draws = Config.keyNone) :
    exec (.ldVxK x) s = .next s.nextDraw := by
  have hpc : s.advance.pc - 2 = s.pc := BitVec.add_sub_cancel s.pc 2
  rw [exec, execLdVxK, if_pos h, hpc]
  rfl

theorem exec_ldVxK_of_key (h : Config.keyCurrent s.draws ≠ Config.keyNone) :
    exec (.ldVxK x) s = .next (s.advance.nextDraw.setReg x (Config.keyCurrent s.draws)) := by
  rw [exec, execLdVxK, if_neg h]

/-- Settles O51, by whether the environment answers with a key. -/
theorem keyWaitRewindsOrStoresTheKey : Obligations.KeyWaitRewindsOrStoresTheKey := by
  intro x s
  split
  next hnone => exact ⟨_, exec_ldVxK_of_none hnone, rfl, nextDraw_changesOnly s⟩
  next hkey =>
    exact ⟨_, exec_ldVxK_of_key hkey, rfl, State.setReg_getReg_self .., rfl, setReg_nextDraw_changesOnly ..⟩

/-! ### Timer (rules R154 to R156) -/

theorem exec_ldVxDt (x : RegIx) (s : State) : exec (.ldVxDt x) s = .next (s.advance.setReg x s.dt) := rfl

theorem exec_ldDtVx (x : RegIx) (s : State) : exec (.ldDtVx x) s = .next (s.advance.setDt (s.getReg x)) := rfl

theorem exec_ldStVx (x : RegIx) (s : State) : exec (.ldStVx x) s = .next s.advance := rfl

theorem setDt_changesOnly (s : State) (value : Byte) : ChangesOnly [.pc, .dt] [] s (s.advance.setDt value) := by
  constructor <;> simp

/-- Settles O52: each of the three is the advance with at most one write, of a register or of `DT`. -/
theorem timerInstructions : Obligations.TimerInstructions := by
  refine fun x s => ⟨?_, ?_, ?_⟩
  · exact ⟨_, exec_ldVxDt x s, State.setReg_getReg_self .., rfl, setReg_changesOnly ..⟩
  · exact ⟨_, exec_ldDtVx x s, rfl, rfl, setDt_changesOnly ..⟩
  · exact ⟨_, exec_ldStVx x s, rfl, advance_changesOnly s⟩

end Sys2Proof
end

/-! ## The ends of a step, the host's other actions, and the timer -/

section
namespace Sys2Proof

open Sys2Proof.Machine

variable {i : Instr} {s : State}

/-! ### The three ends of a step (rules R160, R167, R170) -/

/-- Settles O9: the ends of a cycle after the turn of the host, which leaves the pc and the fetch as they are. -/
theorem stepCompletesHaltsOrFaultsPrecisely : Obligations.StepCompletesHaltsOrFaultsPrecisely := by
  intro s hr
  have hcycle := cycle_cases s.hostTurn
  rw [State.hostTurn_pc, State.hostTurn_fetch] at hcycle
  rw [step_running hr]
  obtain ⟨hf, hc⟩ | ⟨w, hf, -, hc⟩ | ⟨w, i, hf, hd, hc⟩ := hcycle <;> rw [hf]
  · exact ⟨_, hc, .inr (.inr ⟨_, raise_faultsWith .., by simp⟩)⟩
  · exact ⟨_, hc, .inr (.inr ⟨_, raise_faultsWith .., by simp⟩)⟩
  · obtain rfl := encode_of_decodeWord hd
    obtain ⟨t, ht⟩ := exec_total i s.hostTurn
    refine ⟨t, hc.trans ht, ?_⟩
    obtain hgoes | ⟨nnn, rfl, hself, rfl⟩ | ⟨cause, rfl, hnf, -⟩ := exec_next_cases (s := s.hostTurn) hr ht
    · exact .inl hgoes
    · exact .inr (.inl ⟨rfl, halt_changesOnly _, nnn, hself, rfl⟩)
    · exact .inr (.inr ⟨cause, raise_faultsWith .., by simp [hnf]⟩)

/-! ### Which instruction raises which fault (rules R161, R170) -/

/-- The address of `MemBounds` is out of range (rule R164). -/
theorem lt_of_firstOutOfRange_eq_some {base : Word} {count bad : Nat} (h : firstOutOfRange base count = some bad) :
    0xFFF < bad := by
  have := firstOutOfRange_eq_some.mp h
  omega

/-- Where an instruction of a running core raises a fault, a branch of its meaning does, and that names the cause. -/
theorem exec_raise_cases {cause : Cause} {word : Option Word} (hr : s.status = .running)
    (h : exec i s = .next (s.raise cause word)) :
    (cause = .stackUnderflow ∧ i = .ret) ∨ (cause = .stackOverflow ∧ ∃ nnn, i = .callNnn nnn) ∨
    ((∃ bad, cause = .memBounds bad ∧ 0xFFF < bad) ∧
      ((∃ x y n, i = .drwVxVyN x y n) ∨ (∃ x, i = .ldBVx x) ∨ (∃ x, i = .ldMemIVx x) ∨ ∃ x, i = .ldVxMemI x)) := by
  cases i <;> have hstatus := congrArg State.status (Host.Outcome.next.inj h)
  case ret =>
    split at hstatus
    · split at hstatus
      · cases hstatus
        exact .inl ⟨rfl, rfl⟩
      · simp [hr] at hstatus
    · simp [hr] at hstatus
  case callNnn nnn =>
    split at hstatus
    · cases hstatus
      exact .inr (.inl ⟨rfl, nnn, rfl⟩)
    · simp [hr] at hstatus
  case jpNnn => split at hstatus <;> simp [hr] at hstatus
  case drwVxVyN | ldBVx | ldMemIVx | ldVxMemI =>
    all_goals
      split at hstatus
      · rename_i hrange
        cases hstatus
        exact .inr (.inr ⟨⟨_, rfl, lt_of_firstOutOfRange_eq_some hrange⟩, by simp⟩)
      · simp [hr, State.setFlag] at hstatus
  all_goals
    have hframe := (exec_changesOnly h).status (by simp [partsWritten])
    simp [hr] at hframe

/-- Settles O14: an instruction that stops a running core halts it on a self-jump or raises a fault with its own word. -/
theorem stopsComeFromTheirInstructions : Obligations.StopsComeFromTheirInstructions := by
  intro i s t hr h
  obtain hgoes | ⟨nnn, rfl, -, rfl⟩ | ⟨cause, rfl, -⟩ := exec_next_cases hr h
  · simp [hgoes]
  · exact ⟨fun _ => ⟨nnn, rfl⟩, nofun⟩
  · refine ⟨nofun, ?_⟩
    rintro _ _ _ ⟨⟩
    exact ⟨rfl, rfl, exec_raise_cases hr h⟩

/-! ### The host's other actions (rule R194) -/

/-- Settles O12, a part of the same fact about every action. -/
theorem hostActionsKeepInv : Obligations.HostActionsKeepInv := fun _ _ _ _ hi h => hi.hostAct h

/-! ### The timer tick (rule R175) -/

theorem timerTick_running (hr : s.status = .running) : s.timerTick = s.setDt (tickDown s.dt) := by
  simp [State.timerTick, State.setDt, hr]

theorem ticksDown_zero (dt : Byte) : ticksDown 0 dt = dt := by simp [ticksDown]

theorem ticksDown_succ (count : Nat) (dt : Byte) : ticksDown (count + 1) dt = tickDown (ticksDown count dt) := by
  apply BitVec.eq_of_toNat_eq
  rw [tickDown_toNat]
  simp only [ticksDown, BitVec.toNat_ofNat]
  omega

/-- Ticks in a row take their number from `DT` at once, and the core stays running. -/
theorem repeat_timerTick (hr : s.status = .running) (count : Nat) :
    Nat.repeat State.timerTick count s = s.setDt (ticksDown count s.dt) := by
  induction count with
  | zero => rw [ticksDown_zero]; rfl
  | succ k ih =>
    have hk : (s.setDt (ticksDown k s.dt)).status = .running := hr
    rw [Nat.repeat, ih, timerTick_running hk, ticksDown_succ]
    rfl

/-- Settles O53: one tick by its number, the ticks of the turn by induction on how many there are. -/
theorem timerTickDecrementsToZero : Obligations.TimerTickDecrementsToZero := by
  refine ⟨fun s hr => ⟨s.timerTick, rfl, ?_⟩, fun s hr => ?_⟩
  · rw [timerTick_running hr]
    exact ⟨tickDown_toNat s.dt, by constructor <;> simp⟩
  · rw [repeat_timerTick hr]
    rfl

end Sys2Proof
end
